-- ==== Sys2Proof/Word.lean ====
section
/-! DEFINITION. The values the block handles: bytes, times, and the input element that carries one byte with its two times. -/

namespace Sys2Proof

/-- An 8-bit unsigned byte (00_scope.md R9). -/
abbrev Byte := BitVec 8

/-- A time, and a duration: an exact rational number of seconds (10_state.md R15; log 1). -/
abbrev Time := Rat

/-- The input element (10_state.md R14): `value`, `start_time` and `end_time`; `stop` is the spec's `end`. -/
structure TimestampedByte where
  value : Byte
  start : Time
  stop : Time
  deriving DecidableEq, Repr

end Sys2Proof
end

