-- ==== Sys2Proof/Config.lean ====
section
/-! DEFINITION. What an implementation fixes (00_scope.md R7): the shape of a configuration record, and the OPEN parameters
as constants with no body, so that no proof can see their values. -/

namespace Sys2Proof

/-- `VARIANT` (00_scope.md R7): the two protocol variants. -/
inductive Variant where
  | fixed
  | measured
  deriving DecidableEq, Repr

/-- `MIN_LEN_ASSIGN` (00_scope.md R7): which variant has the minimum 9 and which 13. `a9_13`: FIXED has 9, MEASURED has 13. -/
inductive MinLenAssign where
  | a9_13
  | a13_9
  deriving DecidableEq, Repr, Inhabited

/-- `bit_duration` (00_scope.md R8): `Fixed` with its duration, or `Computed` from the first payload byte. -/
inductive BitDuration where
  | fixed (bd : Time)
  | computed
  deriving DecidableEq, Repr

/-- `trailer_layout` (00_scope.md R8). -/
inductive TrailerLayout where
  | fine
  | coarse
  deriving DecidableEq, Repr

/-- A configuration record (00_scope.md R8, 10_state.md R23). Only two of its values are admitted (60_exceptions.md R124). -/
structure ProtocolVariant where
  minValidPayloadLen : BitVec 4
  bitDuration : BitDuration
  headerMerge : Bool
  trailerLayout : TrailerLayout
  trailerExcluded : Nat
  deriving DecidableEq, Repr

/-- `MIN_LEN_ASSIGN` of this block, OPEN (00_scope.md R7; log 2). -/
opaque Config.minLenAssign : MinLenAssign

/-- `OUT_FIFO_DEPTH - 1` of this block, OPEN (00_scope.md R7: the depth is at least 1; log 6). -/
opaque Config.outFifoDepthPred : Nat

/-- `OUT_FIFO_DEPTH` (00_scope.md R7). -/
def Config.outFifoDepth : Nat := Config.outFifoDepthPred + 1

/-- `TIME_W`, the width of a hardware time word, OPEN (00_scope.md R7; log 1). -/
opaque Config.timeW : Nat

/-- `TIME_FRAC`, the fraction bits of a hardware time word, OPEN (00_scope.md R7; log 1). -/
opaque Config.timeFrac : Nat

/-- Which of the two times of a record (30_encoding.md R52). -/
inductive TimeEdge where
  | start
  | stop
  deriving DecidableEq, Repr

/-- The rounding function of a hardware realisation, implementation-defined (42_time.md R99, 93_implementation_defined.md I1):
the word it produces for a time of a record, from all that the time is computed from, which is the record's tag code, its
number, its two exact times and which of them is asked for (log 24). -/
opaque Config.roundTime (tag : BitVec 5) (n : BitVec 8) (start stop : Time) (edge : TimeEdge) : BitVec Config.timeW

end Sys2Proof
end

