-- ==== Sys2Proof/Syntax.lean ====
section
/-! DEFINITION. The operations of the block, one constructor of `Instr` for each row of spec/opcode_table.json, and the FSM
states that select them. -/

namespace Sys2Proof

/-- The values of the 3-bit FSM state register (10_state.md R16): six states and the two reserved codes 6 and 7
(30_encoding.md R44). -/
inductive FsmState where
  | waitForFirstByte
  | waitForLen
  | waitForType
  | readData
  | waitForUplinkType
  | waitForUplinkData
  | reserved6
  | reserved7
  deriving DecidableEq, Repr

/-- An operation of the block (30_encoding.md R56). A FEED operation carries the input element it consumes, byte and times
(30_encoding.md R43: the times travel with the word). -/
inductive Instr where
  | feedSentinel (x : TimestampedByte)
  | feedUplinkStart (x : TimestampedByte)
  | feedIdle (x : TimestampedByte)
  | feedLenOk (x : TimestampedByte)
  | feedLenBad (x : TimestampedByte)
  | feedTypeCtrl (x : TimestampedByte)
  | feedTypeDl (x : TimestampedByte)
  | feedTypeUnk (x : TimestampedByte)
  | feedData (x : TimestampedByte)
  | feedDataLast (x : TimestampedByte)
  | feedUplType (x : TimestampedByte)
  | feedUplData (x : TimestampedByte)
  /-- `st` is the state code that selected the operation: reserved, or READ_DATA with an overfull buffer
  (60_exceptions.md R117). -/
  | feedIllegal (st : FsmState) (x : TimestampedByte)
  /-- The block reset with the configuration record it loads (70_reset_and_hazards.md R125). -/
  | reset (cfg : ProtocolVariant)
  deriving DecidableEq, Repr

end Sys2Proof
end

