-- ==== Sys2Proof/WellFormed.lean ====
section
/-! DEFINITION. Which terms of `Instr` stand for an operation of the block: the byte each row of the opcode table fixes or
excludes, and the states that select FEED.ILLEGAL. What a row's condition asks of the session (30_encoding.md R46) is no part
of the term: `DecodeCtx.selects` in Decode.lean says it. -/

namespace Sys2Proof

/-- The static conditions of the opcode table's rows (30_encoding.md R46, R56). -/
def Instr.wf : Instr → Bool
  | .feedSentinel x => x.value == 0x7E
  | .feedUplinkStart x => x.value == 0x08
  | .feedIdle x => x.value != 0x7E && x.value != 0x08
  | .feedLenOk _ => true
  | .feedLenBad _ => true
  | .feedTypeCtrl x => x.value == 0x00
  | .feedTypeDl x => x.value == 0x01
  | .feedTypeUnk x => x.value != 0x00 && x.value != 0x01
  | .feedData _ => true
  | .feedDataLast _ => true
  | .feedUplType _ => true
  | .feedUplData _ => true
  | .feedIllegal st _ => st == .reserved6 || st == .reserved7 || st == .readData
  | .reset _ => true

end Sys2Proof
end

