-- ==== Sys2Proof/Decode.lean ====
section
/-! DEFINITION. The encoding: state codes, the 11-bit input word, the decoder of 30_encoding.md R46, the encoder, and the two
configuration records (00_scope.md R8) the port `cfg_variant` selects. -/

namespace Sys2Proof

/-! ### State codes and the input word (30_encoding.md R43, R44) -/

/-- The code of an FSM state (30_encoding.md R44). -/
def FsmState.code : FsmState → BitVec 3
  | .waitForFirstByte => 0
  | .waitForLen => 1
  | .waitForType => 2
  | .readData => 3
  | .waitForUplinkType => 4
  | .waitForUplinkData => 5
  | .reserved6 => 6
  | .reserved7 => 7

/-- The FSM state a code stands for (30_encoding.md R44). -/
def FsmState.ofCode (c : BitVec 3) : FsmState :=
  if c = 0 then .waitForFirstByte
  else if c = 1 then .waitForLen
  else if c = 2 then .waitForType
  else if c = 3 then .readData
  else if c = 4 then .waitForUplinkType
  else if c = 5 then .waitForUplinkData
  else if c = 6 then .reserved6
  else .reserved7

/-- `W = state_code[2:0] ‖ x.value[7:0]` (30_encoding.md R43). -/
def inputWord (st : FsmState) (b : Byte) : BitVec 11 := st.code ++ b

/-- The state in `W[10:8]`. -/
def wordState (w : BitVec 11) : FsmState := .ofCode (w.extractLsb' 8 3)

/-- The byte in `W[7:0]`. -/
def wordByte (w : BitVec 11) : Byte := w.extractLsb' 0 8

/-- `E = zext_9(L) + 1`, in 9 bits (30_encoding.md R47). -/
def expectedLengthOf (l : Byte) : BitVec 9 := l.setWidth 9 + 1

/-! ### Configuration records (00_scope.md R8) -/

/-- `BD_FIXED` (00_scope.md R7, 42_time.md R89): exactly 1/115200 second. -/
def bdFixed : Time := 1 / 115200

/-- `MIN_LEN` of a variant under an assignment (00_scope.md R7). -/
def minLen : MinLenAssign → Variant → BitVec 4
  | .a9_13, .fixed => 9
  | .a9_13, .measured => 13
  | .a13_9, .fixed => 13
  | .a13_9, .measured => 9

/-- The record of a variant (00_scope.md R8). -/
def variantRecord (a : MinLenAssign) : Variant → ProtocolVariant
  | .fixed => ⟨minLen a .fixed, .fixed bdFixed, false, .fine, 3⟩
  | .measured => ⟨minLen a .measured, .computed, true, .coarse, 0⟩

/-- The variant `cfg_variant` selects: 0 FIXED, 1 MEASURED (30_encoding.md R60). -/
def portVariant (v : BitVec 1) : Variant := if v = 0 then .fixed else .measured

/-- The record block reset loads for a value of the port `cfg_variant` (10_state.md R23, 70_reset_and_hazards.md R125). -/
def portRecord (v : BitVec 1) : ProtocolVariant := variantRecord Config.minLenAssign (portVariant v)

/-- The configuration check (60_exceptions.md R124): one of the two records under the block's `MIN_LEN_ASSIGN`. -/
def admitted (cfg : ProtocolVariant) : Bool := cfg == portRecord 0 || cfg == portRecord 1

/-! ### Decode (30_encoding.md R46) -/

/-- A field whose absence a read can meet (10_state.md R33): what Fault NONE_READ records. -/
inductive FieldName where
  | expectedLength
  | frameType
  | headerStartTime
  | buf
  deriving DecidableEq, Repr

/-- What of the session and the configuration decides between operations that share a word (30_encoding.md R43). -/
structure DecodeCtx where
  minLen : BitVec 4
  bufLen : Nat
  expected : Option (BitVec 9)
  deriving DecidableEq, Repr

/-- What reaches the block: an input word with its two times, the port `rst` with the value of `cfg_variant` as it falls
(30_encoding.md R60), or the construction with any configuration record, which no port can ask for (60_exceptions.md R124;
log 15). -/
inductive PortInput where
  | word (w : BitVec 11) (start stop : Time)
  | rst (cfgVariant : BitVec 1)
  | construct (cfg : ProtocolVariant)
  deriving DecidableEq, Repr

/-- WAIT_FOR_FIRST_BYTE of 30_encoding.md R46. -/
def decodeFirstByte (x : TimestampedByte) : Instr :=
  if x.value = 0x7E then .feedSentinel x
  else if x.value = 0x08 then .feedUplinkStart x
  else .feedIdle x

/-- WAIT_FOR_LEN of 30_encoding.md R46. -/
def decodeLen (c : DecodeCtx) (x : TimestampedByte) : Instr :=
  if (expectedLengthOf x.value).toNat < c.minLen.toNat then .feedLenBad x else .feedLenOk x

/-- WAIT_FOR_TYPE of 30_encoding.md R46. -/
def decodeType (x : TimestampedByte) : Instr :=
  if x.value = 0x00 then .feedTypeCtrl x
  else if x.value = 0x01 then .feedTypeDl x
  else .feedTypeUnk x

/-- READ_DATA of 30_encoding.md R46; an absent `expected_length` is the read of 10_state.md R33 (log 12). -/
def decodeData (c : DecodeCtx) (x : TimestampedByte) : Except FieldName Instr :=
  match c.expected with
  | none => .error .expectedLength
  | some e =>
    if c.bufLen + 1 < e.toNat then .ok (.feedData x)
    else if c.bufLen + 1 = e.toNat then .ok (.feedDataLast x)
    else .ok (.feedIllegal .readData x)

/-- Decode by state code (30_encoding.md R46). -/
def decodeElement (c : DecodeCtx) (st : FsmState) (x : TimestampedByte) : Except FieldName Instr :=
  match st with
  | .waitForFirstByte => .ok (decodeFirstByte x)
  | .waitForLen => .ok (decodeLen c x)
  | .waitForType => .ok (decodeType x)
  | .readData => decodeData c x
  | .waitForUplinkType => .ok (.feedUplType x)
  | .waitForUplinkData => .ok (.feedUplData x)
  | .reserved6 => .ok (.feedIllegal .reserved6 x)
  | .reserved7 => .ok (.feedIllegal .reserved7 x)

/-- The operation an input selects (30_encoding.md R46, R56). The only thing that can stop it is a read of an absent field. -/
def decode (c : DecodeCtx) : PortInput → Except FieldName Instr
  | .word w start stop => decodeElement c (wordState w) ⟨wordByte w, start, stop⟩
  | .rst v => .ok (.reset (portRecord v))
  | .construct cfg => .ok (.reset cfg)

/-- Why a number is no input word the decoder reads. -/
inductive DecodeError where
  /-- The number has bits above `W[10]`. -/
  | notElevenBits
  /-- The session the word is read in lacks a field Decode reads. -/
  | noneRead (f : FieldName)
  deriving DecidableEq, Repr

/-- Decode of any number: the 11 bits of an input word, and a rejection by name for anything wider. -/
def decodeNat (c : DecodeCtx) (w : Nat) (start stop : Time) : Except DecodeError Instr :=
  if w < 2048 then
    match decode c (.word (BitVec.ofNat 11 w) start stop) with
    | .ok i => .ok i
    | .error f => .error (.noneRead f)
  else .error .notElevenBits

/-! ### Encode -/

/-- The input that stands for an operation (30_encoding.md R43, R56; 70_reset_and_hazards.md R125). -/
def encode : Instr → PortInput
  | .feedSentinel x => .word (inputWord .waitForFirstByte x.value) x.start x.stop
  | .feedUplinkStart x => .word (inputWord .waitForFirstByte x.value) x.start x.stop
  | .feedIdle x => .word (inputWord .waitForFirstByte x.value) x.start x.stop
  | .feedLenOk x => .word (inputWord .waitForLen x.value) x.start x.stop
  | .feedLenBad x => .word (inputWord .waitForLen x.value) x.start x.stop
  | .feedTypeCtrl x => .word (inputWord .waitForType x.value) x.start x.stop
  | .feedTypeDl x => .word (inputWord .waitForType x.value) x.start x.stop
  | .feedTypeUnk x => .word (inputWord .waitForType x.value) x.start x.stop
  | .feedData x => .word (inputWord .readData x.value) x.start x.stop
  | .feedDataLast x => .word (inputWord .readData x.value) x.start x.stop
  | .feedUplType x => .word (inputWord .waitForUplinkType x.value) x.start x.stop
  | .feedUplData x => .word (inputWord .waitForUplinkData x.value) x.start x.stop
  | .feedIllegal st x => .word (inputWord st x.value) x.start x.stop
  | .reset cfg =>
    if cfg = portRecord 0 then .rst 0 else if cfg = portRecord 1 then .rst 1 else .construct cfg

/-- The condition a row of the opcode table puts on the session and the configuration: with the static one of `Instr.wf` it
says when the operation is the one selected (30_encoding.md R46, opcode_table.json). -/
def DecodeCtx.selects (c : DecodeCtx) : Instr → Bool
  | .feedSentinel _ => true
  | .feedUplinkStart _ => true
  | .feedIdle _ => true
  | .feedLenOk x => decide (c.minLen.toNat ≤ x.value.toNat + 1)
  | .feedLenBad x => decide (x.value.toNat + 1 < c.minLen.toNat)
  | .feedTypeCtrl _ => true
  | .feedTypeDl _ => true
  | .feedTypeUnk _ => true
  | .feedData _ => c.expected.any fun e => decide (c.bufLen + 1 < e.toNat)
  | .feedDataLast _ => c.expected.any fun e => decide (c.bufLen + 1 = e.toNat)
  | .feedUplType _ => true
  | .feedUplData _ => true
  | .feedIllegal st _ => st != .readData || c.expected.any fun e => decide (e.toNat < c.bufLen + 1)
  | .reset _ => true

/-- `match` and `mask` of an operation's row of opcode_table.json, over the bits of W; none for RESET, which has no word. -/
def Instr.row : Instr → Option (BitVec 11 × BitVec 11)
  | .feedSentinel _ => some (0x07E, 0x7FF)
  | .feedUplinkStart _ => some (0x008, 0x7FF)
  | .feedIdle _ => some (0x000, 0x700)
  | .feedLenOk _ => some (0x100, 0x700)
  | .feedLenBad _ => some (0x100, 0x700)
  | .feedTypeCtrl _ => some (0x200, 0x7FF)
  | .feedTypeDl _ => some (0x201, 0x7FF)
  | .feedTypeUnk _ => some (0x200, 0x700)
  | .feedData _ => some (0x300, 0x700)
  | .feedDataLast _ => some (0x300, 0x700)
  | .feedUplType _ => some (0x400, 0x700)
  | .feedUplData _ => some (0x500, 0x700)
  | .feedIllegal .readData _ => some (0x300, 0x700)
  | .feedIllegal _ _ => some (0x600, 0x600)
  | .reset _ => none

/-! ### A word of the opcode table by itself -/

/-- The session a bare word of the opcode table is read in (log 13): the minimum 9, an empty buffer, E = 27. -/
def tableCtx : DecodeCtx := ⟨9, 0, some 27⟩

/-- The times a bare word of the opcode table is given (log 13). -/
def tableElement (b : Byte) : TimestampedByte := ⟨b, 0, 1⟩

/-- The operation an opcode-table word selects in `tableCtx` (log 13). -/
def decodeTableWord (nbits w : Nat) : Option Instr :=
  if nbits = 0 then none
  else
    match decodeNat tableCtx w 0 1 with
    | .ok i => some i
    | .error _ => none

end Sys2Proof
end

