-- ==== Sys2Proof/Machine/State.lean ====
section
/-! DEFINITION. The state of the block (10_state.md): the session, the configuration, the checker fields, the records on their
way out, and the host's moves to come; and the state right after block reset. -/

namespace Sys2Proof.Machine

/-- `frame_type` (10_state.md R18, 30_encoding.md R45). Code 3 is reserved and never written: it has no constructor. -/
inductive FrameType where
  | control
  | downlinkData
  | unknown
  deriving DecidableEq, Repr

/-- The tags of the output record (30_encoding.md R53). Tags 19 to 31 are reserved and never emitted: no constructor. -/
inductive Tag where
  | head
  | len
  | typeControl
  | typeDownlink
  | typeUnknown
  | startControl
  | startDownlink
  | startUnknown
  | channel
  | failsafe
  | lostFrame
  | ch18
  | ch17
  | flags
  | rssiVal
  | rssi
  | crcVal
  | crc
  | finish
  deriving DecidableEq, Repr

/-- The annotation record `{tag, n, v, start, end}` (30_encoding.md R52); `stop` is the spec's `end`. -/
structure Annotation where
  tag : Tag
  n : BitVec 8
  v : BitVec 11
  start : Time
  stop : Time
  deriving DecidableEq, Repr

/-- A record at the output port with its `out_last` bit (30_encoding.md R59). -/
structure OutRecord where
  record : Annotation
  last : Bool
  deriving DecidableEq, Repr

/-- The fault kinds with what each records (60_exceptions.md R113). They are values of the state's field `fault`. -/
inductive FaultKind where
  | inputOrder (x : TimestampedByte)
  | illegalState (code : BitVec 3)
  | noneRead (f : FieldName)
  deriving DecidableEq, Repr

/-- The set of refusal marks (60_exceptions.md R114): bit 0 UPLINK, bit 1 CONFIG. -/
structure RefusalMarks where
  uplink : Bool
  config : Bool
  deriving DecidableEq, Repr

/-- A move of the host (70_reset_and_hazards.md R130; log 4). Stopping to feed is having no further `feed` move, and reading
`st_state` changes nothing: neither is a move. -/
inductive HostMove where
  /-- Drive `in_valid` with this element, and hold it until it is consumed: the moves behind it can be made meanwhile
  (30_encoding.md R58, 70_reset_and_hazards.md R129). -/
  | feed (x : TimestampedByte)
  /-- Drive `out_ready` for one transfer (30_encoding.md R59). -/
  | take
  /-- Hold `rst` and let it fall with this value of `cfg_variant` (30_encoding.md R60). -/
  | reset (cfgVariant : BitVec 1)
  /-- Construct the model with a configuration record, admitted or not (60_exceptions.md R124; log 15). -/
  | construct (cfg : ProtocolVariant)
  deriving DecidableEq, Repr

/-- The whole state. Reset values: 10_state.md R31. -/
structure State where
  /-- The FSM state register (10_state.md R16). -/
  state : FsmState
  /-- `expected_length`, 9 bits with a valid bit (10_state.md R17). -/
  expectedLength : Option (BitVec 9)
  /-- `frame_type` (10_state.md R18). -/
  frameType : Option FrameType
  /-- `Buf[0 .. BufLen-1]`, oldest first; `BufLen` is the length (10_state.md R19; log 10). -/
  buf : List TimestampedByte
  /-- `header_start_time` (10_state.md R20). -/
  headerStartTime : Option Time
  /-- The configuration register (10_state.md R23). -/
  cfg : ProtocolVariant
  /-- Checker: the end of the last byte consumed since block reset (10_state.md R28). -/
  lastEnd : Option Time
  /-- Checker: the recorded fault (10_state.md R28, 60_exceptions.md R113). -/
  fault : Option FaultKind
  /-- Checker: the refusal marks (10_state.md R28, 60_exceptions.md R114). -/
  refused : RefusalMarks
  /-- Records emitted and not yet taken, oldest first: the output FIFO and the batch behind it (10_state.md R32; log 6). -/
  outQueue : List OutRecord
  /-- The model's own: records the consumer has taken, oldest first (70_reset_and_hazards.md R134; log 14). -/
  taken : List OutRecord
  /-- The model's own: the host's moves to come (log 4). -/
  host : List HostMove
  deriving DecidableEq, Repr

/-- The stops of the host interface. The spec's own faults are values of the field `fault`, not of this type (log 9). -/
inductive Fault where
  /-- Raised by Append (FEED.DATA, FEED.DATA_LAST) when all 256 entries of the payload buffer are held: entry 256 does not
  exist (10_state.md R19) and 20_memory.md R35 says it is never appended. Safe: the model stops where the spec gives no effect
  (log 11). -/
  | noBufferEntry
  deriving DecidableEq, Repr

/-- The refusals of the host interface. The spec's own refusal marks are the field `refused`, not of this type (log 9). -/
inductive Refusal where
  /-- Raised by nothing: every operation has its meaning. It would be safe: the model would stop. -/
  | notModelled (mnemonic : String)
  deriving DecidableEq, Repr

/-- Block reset with a configuration record, the checker's CONFIG mark given (70_reset_and_hazards.md R125, 10_state.md R31):
every field but the model's own two, which the block does not hold. -/
def State.afterReset (cfg : ProtocolVariant) (config : Bool) (taken : List OutRecord) (host : List HostMove) : State where
  state := .waitForFirstByte
  expectedLength := none
  frameType := none
  buf := []
  headerStartTime := none
  cfg := cfg
  lastEnd := none
  fault := none
  refused := ⟨false, config⟩
  outQueue := []
  taken := taken
  host := host

/-- The state right after block reset (10_state.md R31), `cfg_variant` having been 0 (log 3), with no move of the host to come
and no record taken (log 14). -/
def State.reset : State := State.afterReset (portRecord 0) false [] []

end Sys2Proof.Machine
end

