-- ==== Sys2Proof/Machine/Flags.lean ====
section
/-! DEFINITION. The fields of the trailer flags byte (30_encoding.md R49, 43_trailer.md R107), each as the value its record
shows. Bits 7 to 4 have no field. The block has no arithmetic flags (10_state.md R26). -/

namespace Sys2Proof.Machine

/-- One bit of a byte as an 11-bit record value (30_encoding.md R52: `v` is 0 or 1). -/
def bitShown (b : Byte) (i : Nat) : BitVec 11 := if b.getLsbD i then 1 else 0

/-- `failsafe = F.value[3]`. -/
def flagFailsafe (f : Byte) : BitVec 11 := bitShown f 3

/-- `lost frame = F.value[2]`. -/
def flagLostFrame (f : Byte) : BitVec 11 := bitShown f 2

/-- `ch18 = F.value[1]`. -/
def flagCh18 (f : Byte) : BitVec 11 := bitShown f 1

/-- `ch17 = F.value[0]`. -/
def flagCh17 (f : Byte) : BitVec 11 := bitShown f 0

end Sys2Proof.Machine
end

