-- ==== Sys2Proof/Machine/Operands.lean ====
section
/-! DEFINITION. The fields a byte carries in each state (30_encoding.md R47, R48): the length byte and the type byte, and the
codes of what they classify into. The flags byte is in Flags.lean. -/

namespace Sys2Proof.Machine

/-- The classification of a type byte (30_encoding.md R45, R48). -/
def classify (b : Byte) : FrameType :=
  if b = 0x00 then .control else if b = 0x01 then .downlinkData else .unknown

/-- The frame-type codes (30_encoding.md R45). -/
def FrameType.code : FrameType → BitVec 2
  | .control => 0
  | .downlinkData => 1
  | .unknown => 2

/-- The value a `Len` record shows: L, not E (30_encoding.md R47). -/
def lenShown (l : Byte) : BitVec 11 := l.setWidth 11

/-- The value an `RSSI` or `CRC` record of variant FIXED shows: the whole byte (43_trailer.md R105, R106). -/
def byteShown (b : Byte) : BitVec 11 := b.setWidth 11

end Sys2Proof.Machine
end

