-- ==== Sys2Proof/Machine/Ops.lean ====
section
/-! DEFINITION. The operations over the session the meanings share: the frame reset, the payload buffer, reads of fields that
may be absent, emitting records, taking a fault, the block reset that is the only way out of one, and the procedure every FEED
operation runs in. -/

namespace Sys2Proof.Machine

/-- What stops an operation: a fault of the spec (60_exceptions.md R113), or a stop of the host interface. -/
inductive Raised where
  | fault (k : FaultKind)
  | stop (f : Fault)
  deriving DecidableEq, Repr

/-- The outcome of a step of this machine. -/
abbrev Result := Host.Outcome State Fault Refusal

/-- What an operation gives: the state it leaves and its batch, in emission order (00_scope.md R11), or what stops it. -/
abbrev OpResult := Except Raised (State × List Annotation)

/-! ### Faults and refusal marks -/

/-- The fault codes (60_exceptions.md R113). -/
def FaultKind.code : FaultKind → Nat
  | .inputOrder _ => 1
  | .illegalState _ => 2
  | .noneRead _ => 3

/-- Taking a fault (60_exceptions.md R113): `fault` is set and every other field is as it was before the step. -/
def State.raiseFault (s : State) (k : FaultKind) : State := { s with fault := some k }

/-- `Refuse(UPLINK)` (60_exceptions.md R114). -/
def State.refuseUplink (s : State) : State := { s with refused := { s.refused with uplink := true } }

/-- The model takes no step: a fault is recorded (60_exceptions.md R113) or the configuration was refused (R124). -/
def State.halted (s : State) : Bool := s.fault.isSome || s.refused.config

/-- A read of an absent field (10_state.md R33). -/
def noneRead (f : FieldName) : Raised := .fault (.noneRead f)

/-- The value of a field that may be absent (10_state.md R33). -/
def readField {α : Type} (f : FieldName) : Option α → Except Raised α
  | some v => .ok v
  | none => .error (noneRead f)

/-! ### The payload buffer (20_memory.md R36) -/

/-- `BufLen`. -/
def State.bufLen (s : State) : Nat := s.buf.length

/-- `BUF_DEPTH` (00_scope.md R7). -/
def bufDepth : Nat := 256

/-- `Append(x)` to the buffered bytes; entry 256 does not exist (10_state.md R19; log 11). -/
def append (buf : List TimestampedByte) (x : TimestampedByte) : Except Raised (List TimestampedByte) :=
  if buf.length < bufDepth then .ok (buf ++ [x]) else .error (.stop .noBufferEntry)

/-- `Buf[i]`. -/
def bufAt (buf : List TimestampedByte) (i : Nat) : Except Raised TimestampedByte := readField .buf buf[i]?

/-- `BufEnd(k) = Buf[BufLen - k]`, `k >= 1`; a position before the first entry is no entry (log 19). -/
def bufEnd (buf : List TimestampedByte) (k : Nat) : Except Raised TimestampedByte :=
  if k ≤ buf.length then bufAt buf (buf.length - k) else .error (noneRead .buf)

/-! ### Frame reset and block reset -/

/-- Frame reset (10_state.md R21). -/
def State.frameReset (s : State) : State :=
  { s with state := .waitForFirstByte, expectedLength := none, frameType := none, headerStartTime := none, buf := [] }

/-- `Reset(cfg)` (70_reset_and_hazards.md R125): the only way out of a fault or a refusal. A record that is not admitted leaves
the CONFIG mark (60_exceptions.md R124). The consumer keeps the records it has taken. -/
def State.blockReset (s : State) (cfg : ProtocolVariant) : State :=
  State.afterReset cfg (!admitted cfg) s.taken s.host

/-! ### Emitting records -/

/-- `Emit(tag, n, v, t0, t1)` makes this record (00_scope.md R10). -/
def annotation (tag : Tag) (n : BitVec 8) (v : BitVec 11) (start stop : Time) : Annotation := ⟨tag, n, v, start, stop⟩

/-- A batch as it goes to the output port: `out_last` is 1 on its last record (30_encoding.md R59). -/
def markLast : List Annotation → List OutRecord
  | [] => []
  | [a] => [⟨a, true⟩]
  | a :: b :: rest => ⟨a, false⟩ :: markLast (b :: rest)

/-- A step's batch joins the records on their way out, behind those of earlier steps (70_reset_and_hazards.md R131). -/
def State.emit (s : State) (out : List Annotation) : State := { s with outQueue := s.outQueue ++ markLast out }

/-! ### The step procedure (40_framing.md R61) -/

/-- The input contract (60_exceptions.md R112): the byte occupies time, and does not overlap the one before it. -/
def inputInOrder (lastEnd : Option Time) (x : TimestampedByte) : Bool :=
  decide (x.start < x.stop) && lastEnd.all fun e => decide (e ≤ x.start)

/-- The procedure every FEED operation runs in (40_framing.md R61), with the priority of 60_exceptions.md R120: no step after a
fault or a refused configuration; INPUT_ORDER; the operation; and `last_end <- x.end` when it raised nothing. -/
def runElement (x : TimestampedByte) (op : State → OpResult) (s : State) : Result :=
  if s.halted then .next s
  else if inputInOrder s.lastEnd x then
    match op s with
    | .ok (t, out) => .next ({ t with lastEnd := some x.stop }.emit out)
    | .error (.fault k) => .next (s.raiseFault k)
    | .error (.stop f) => .fault f
  else .next (s.raiseFault (.inputOrder x))

end Sys2Proof.Machine
end

