-- ==== Sys2Proof/Machine/Timing.lean ====
section
/-! DEFINITION. The time reconstructor (42_time.md), in exact rational arithmetic. -/

namespace Sys2Proof.Machine

/-- `bd` (42_time.md R88-R90): the fixed duration, or a tenth of the first payload byte's. -/
def bitTime (d : BitDuration) (b0 : TimestampedByte) : Time :=
  match d with
  | .fixed bd => bd
  | .computed => (b0.stop - b0.start) / 10

/-- `h = bd / 2` (42_time.md R92). -/
def halfBit (bd : Time) : Time := bd / 2

/-- `start(ch i) = t0 + 11 * (i - 1) * bd`, i from 1 (42_time.md R91). -/
def channelStart (t0 bd : Time) (i : Nat) : Time := t0 + 11 * ((i : Time) - 1) * bd

/-- `end(ch i) = t0 + 11 * i * bd` (42_time.md R91). -/
def channelStop (t0 bd : Time) (i : Nat) : Time := t0 + 11 * (i : Time) * bd

/-- `F.end - k * h`: the edges of the fine trailer spans (42_time.md R93). -/
def fineEdge (fStop h : Time) (k : Nat) : Time := fStop - (k : Time) * h

end Sys2Proof.Machine
end

