-- ==== Sys2Proof/Machine/Unpack.lean ====
section
/-! DEFINITION. The bit unpacker (41_unpacker.md): the bitstream, the channel count and the channel values; and the loop a
hardware realisation runs, with its working registers. -/

namespace Sys2Proof.Machine

/-- The payload bitstream `S`: byte k supplies stream bits 8k to 8k+7 (20_memory.md R37). -/
def stream (buf : List TimestampedByte) : Nat :=
  (buf.mapIdx fun k b => b.value.toNat <<< (8 * k)).sum

/-- `U = P - cfg.trailer_excluded` (41_unpacker.md R79). -/
def usableBytes (cfg : ProtocolVariant) (p : Nat) : Nat := p - cfg.trailerExcluded

/-- `C = (8 * U) div 11` (41_unpacker.md R80). -/
def channelCount (u : Nat) : Nat := 8 * u / 11

/-- `ch(i) = (S >> (11 * (i - 1))) mod 2048`, i from 1 (41_unpacker.md R82). -/
def channelValue (buf : List TimestampedByte) (i : Nat) : BitVec 11 :=
  BitVec.ofNat 11 (stream buf >>> (11 * (i - 1)))

/-- `[ch(1), .., ch(C)]`. -/
def channelValues (buf : List TimestampedByte) (c : Nat) : List (BitVec 11) :=
  (List.range c).map fun j => channelValue buf (j + 1)

/-! ### The loop of 41_unpacker.md R83, in the registers of R84 -/

/-- The working state inside FEED.DATA_LAST (41_unpacker.md R84): an 18-bit accumulator, a 5-bit bit counter, an 8-bit channel
counter, and the channels produced so far. -/
structure Unpacker where
  value : BitVec 18
  bits : BitVec 5
  count : BitVec 8
  channels : List (BitVec 11)
  deriving DecidableEq, Repr

/-- Each completion starts the working state at 0 (10_state.md R29). -/
def unpackerStart : Unpacker := ⟨0, 0, 0, []⟩

/-- The byte shifted in above the bits the accumulator holds. -/
def shiftIn (u : Unpacker) (b : Byte) : Unpacker :=
  { u with value := u.value ||| (b.setWidth 18 <<< u.bits.toNat), bits := u.bits + 8 }

/-- One channel shifted out when 11 bits are held. -/
def shiftOut (u : Unpacker) : Unpacker :=
  if 11 ≤ u.bits.toNat then
    ⟨u.value >>> 11, u.bits - 11, u.count + 1, u.channels ++ [u.value.extractLsb' 0 11]⟩
  else u

/-- The loop over the payload bytes, stopping once `c` channels are produced. -/
def unpackLoop (c : Nat) (u : Unpacker) : List TimestampedByte → Unpacker
  | [] => u
  | b :: rest => if u.count.toNat = c then u else unpackLoop c (shiftOut (shiftIn u b.value)) rest

end Sys2Proof.Machine
end

