-- ==== Sys2Proof/Machine/Trailer.lean ====
section
/-! DEFINITION. Frame processing (43_trailer.md): the records a completed frame emits, in their order. -/

namespace Sys2Proof.Machine

/-- The CHANNEL record of channel i (43_trailer.md R101). -/
def channelRecord (buf : List TimestampedByte) (t0 bd : Time) (i : Nat) : Annotation :=
  annotation .channel (BitVec.ofNat 8 i) (channelValue buf i) (channelStart t0 bd i) (channelStop t0 bd i)

/-- The CHANNEL records `ch(1) .. ch(C)`. -/
def channelRecords (buf : List TimestampedByte) (t0 bd : Time) (c : Nat) : List Annotation :=
  (List.range c).map fun j => channelRecord buf t0 bd (j + 1)

/-- The fine-grained trailer of variant FIXED (42_time.md R93, R94; 43_trailer.md R101). -/
def fineTrailer (f r : TimestampedByte) (h : Time) : List Annotation :=
  [annotation .failsafe 0 (flagFailsafe f.value) (fineEdge f.stop h 4) (fineEdge f.stop h 3),
   annotation .lostFrame 0 (flagLostFrame f.value) (fineEdge f.stop h 3) (fineEdge f.stop h 2),
   annotation .ch18 0 (flagCh18 f.value) (fineEdge f.stop h 2) (fineEdge f.stop h 1),
   annotation .ch17 0 (flagCh17 f.value) (fineEdge f.stop h 1) f.stop,
   annotation .rssiVal 0 (byteShown r.value) r.start r.stop]

/-- The trailer of variant MEASURED (42_time.md R94; 43_trailer.md R101). -/
def coarseTrailer (f r : TimestampedByte) : List Annotation :=
  [annotation .flags 0 0 f.start f.stop, annotation .rssi 0 0 r.start r.stop]

/-- The flags and RSSI records of a CONTROL frame. -/
def trailerRecords (layout : TrailerLayout) (f r : TimestampedByte) (h : Time) : List Annotation :=
  match layout with
  | .fine => fineTrailer f r h
  | .coarse => coarseTrailer f r

/-- The records only a CONTROL frame has (43_trailer.md R101), F and R being the bytes of R100. -/
def controlRecords (cfg : ProtocolVariant) (buf : List TimestampedByte) : Except Raised (List Annotation) := do
  let f ← bufEnd buf 3
  let r ← bufEnd buf 2
  let b0 ← bufAt buf 0
  let bd := bitTime cfg.bitDuration b0
  let c := channelCount (usableBytes cfg buf.length)
  return channelRecords buf b0.start bd c ++ trailerRecords cfg.trailerLayout f r (halfBit bd)

/-- The CRC and End records every frame has; End spans the last buffered byte K (42_time.md R95, 43_trailer.md R106, R108). -/
def closingRecords (cfg : ProtocolVariant) (k : TimestampedByte) : List Annotation :=
  [if cfg.headerMerge then annotation .crc 0 0 k.start k.stop else annotation .crcVal 0 (byteShown k.value) k.start k.stop,
   annotation .finish 0 0 k.start k.stop]

/-- `ProcessFrame` (43_trailer.md R101). A frame that is not CONTROL reads neither F nor R (43_trailer.md R104; log 12). -/
def processFrame (cfg : ProtocolVariant) (frameType : Option FrameType) (buf : List TimestampedByte) :
    Except Raised (List Annotation) := do
  let ft ← readField .frameType frameType
  let body ← if ft = .control then controlRecords cfg buf else pure []
  let k ← bufEnd buf 1
  return body ++ closingRecords cfg k

end Sys2Proof.Machine
end

