-- ==== Sys2Proof/Machine/Framing.lean ====
section
/-! DEFINITION. The operations of the framing state machine (40_framing.md R62 to R71), one meaning each, run in the step
procedure of R61. -/

namespace Sys2Proof.Machine

/-- A header record of one byte: emitted by variant FIXED only (40_framing.md R62, R65, R74). -/
def headerByte (s : State) (tag : Tag) (v : BitVec 11) (x : TimestampedByte) : List Annotation :=
  if s.cfg.headerMerge then [] else [annotation tag 0 v x.start x.stop]

/-- The record of a type byte: merged from the sentinel's start, or the byte's own (40_framing.md R67 to R69). -/
def typeRecord (s : State) (own merged : Tag) (x : TimestampedByte) : Except Raised Annotation :=
  if s.cfg.headerMerge then do
    let t0 ← readField .headerStartTime s.headerStartTime
    return annotation merged 0 0 t0 x.stop
  else return annotation own 0 0 x.start x.stop

/-- What the three type operations share (40_framing.md R67 to R69). They read `expected_length`, as the table of 10_state.md R30
says; that their pseudocode does not show this read, and that it comes first, is log 22 (DESIGN CHOICE). -/
def opType (ft : FrameType) (own merged : Tag) (x : TimestampedByte) (s : State) : OpResult := do
  let _ ← readField .expectedLength s.expectedLength
  let a ← typeRecord s own merged x
  return ({ s with frameType := some ft, state := .readData }, [a])

/-- The pseudocode of 40_framing.md R62. -/
def opSentinel (x : TimestampedByte) (s : State) : OpResult :=
  .ok ({ s with headerStartTime := some x.start, state := .waitForLen }, headerByte s .head 0 x)

/-- The pseudocode of 40_framing.md R63. -/
def opUplinkStart (s : State) : OpResult := .ok ({ s with state := .waitForUplinkType }, [])

/-- The pseudocode of 40_framing.md R64: nothing. -/
def opIdle (s : State) : OpResult := .ok (s, [])

/-- The pseudocode of 40_framing.md R65. -/
def opLenOk (x : TimestampedByte) (s : State) : OpResult :=
  .ok ({ s with expectedLength := some (expectedLengthOf x.value), buf := [], state := .waitForType },
    headerByte s .len (lenShown x.value) x)

/-- The pseudocode of 40_framing.md R66: the frame reset overwrites the length just set. -/
def opLenBad (x : TimestampedByte) (s : State) : OpResult :=
  .ok ({ s with expectedLength := some (expectedLengthOf x.value) }.frameReset, [])

/-- The pseudocode of 40_framing.md R70. -/
def opData (x : TimestampedByte) (s : State) : OpResult := do
  let b ← append s.buf x
  return ({ s with buf := b }, [])

/-- The pseudocode of 40_framing.md R71. -/
def opDataLast (x : TimestampedByte) (s : State) : OpResult := do
  let b ← append s.buf x
  let out ← processFrame s.cfg s.frameType b
  return (s.frameReset, out)

/-- FEED.SENTINEL (40_framing.md R62). -/
def execFeedSentinel (x : TimestampedByte) (s : State) : Result := runElement x (opSentinel x) s

/-- FEED.UPLINK_START (40_framing.md R63). -/
def execFeedUplinkStart (x : TimestampedByte) (s : State) : Result := runElement x opUplinkStart s

/-- FEED.IDLE (40_framing.md R64). -/
def execFeedIdle (x : TimestampedByte) (s : State) : Result := runElement x opIdle s

/-- FEED.LEN_OK (40_framing.md R65). -/
def execFeedLenOk (x : TimestampedByte) (s : State) : Result := runElement x (opLenOk x) s

/-- FEED.LEN_BAD (40_framing.md R66). -/
def execFeedLenBad (x : TimestampedByte) (s : State) : Result := runElement x (opLenBad x) s

/-- FEED.TYPE_CTRL (40_framing.md R67). -/
def execFeedTypeCtrl (x : TimestampedByte) (s : State) : Result :=
  runElement x (opType .control .typeControl .startControl x) s

/-- FEED.TYPE_DL (40_framing.md R68). -/
def execFeedTypeDl (x : TimestampedByte) (s : State) : Result :=
  runElement x (opType .downlinkData .typeDownlink .startDownlink x) s

/-- FEED.TYPE_UNK (40_framing.md R69). -/
def execFeedTypeUnk (x : TimestampedByte) (s : State) : Result :=
  runElement x (opType .unknown .typeUnknown .startUnknown x) s

/-- FEED.DATA (40_framing.md R70). -/
def execFeedData (x : TimestampedByte) (s : State) : Result := runElement x (opData x) s

/-- FEED.DATA_LAST (40_framing.md R71). -/
def execFeedDataLast (x : TimestampedByte) (s : State) : Result := runElement x (opDataLast x) s

end Sys2Proof.Machine
end

