-- ==== Sys2Proof/Machine/Reset.lean ====
section
/-! DEFINITION. RESET (70_reset_and_hazards.md R125). -/

namespace Sys2Proof.Machine

/-- RESET with the configuration record it loads (70_reset_and_hazards.md R125, R126). -/
def execReset (cfg : ProtocolVariant) (s : State) : Result := .next (s.blockReset cfg)

end Sys2Proof.Machine
end

