-- ==== Sys2Proof/Machine/Uplink.lean ====
section
/-! DEFINITION. The operations of the uplink states and of the reserved codes (60_exceptions.md R115 to R117). -/

namespace Sys2Proof.Machine

/-- The pseudocode of 60_exceptions.md R115. -/
def opUplType (s : State) : OpResult := .ok ({ s.refuseUplink with state := .waitForUplinkData }, [])

/-- The pseudocode of 60_exceptions.md R116. -/
def opUplData (s : State) : OpResult := .ok (s.refuseUplink.frameReset, [])

/-- The pseudocode of 60_exceptions.md R117; the fault records the state code (R113). -/
def opIllegal (st : FsmState) (_ : State) : OpResult := .error (.fault (.illegalState st.code))

/-- FEED.UPL_TYPE (60_exceptions.md R115). -/
def execFeedUplType (x : TimestampedByte) (s : State) : Result := runElement x opUplType s

/-- FEED.UPL_DATA (60_exceptions.md R116). -/
def execFeedUplData (x : TimestampedByte) (s : State) : Result := runElement x opUplData s

/-- FEED.ILLEGAL (60_exceptions.md R117). -/
def execFeedIllegal (st : FsmState) (x : TimestampedByte) (s : State) : Result := runElement x (opIllegal st) s

end Sys2Proof.Machine
end

