-- ==== Sys2Proof/Machine/Dispatch.lean ====
section
/-! DEFINITION. The dispatch: one arm per operation, each a direct call of its meaning. -/

namespace Sys2Proof.Machine

def exec (i : Instr) (s : State) : Host.Outcome State Fault Refusal :=
  match i with
  | .feedSentinel x => Sys2Proof.Machine.execFeedSentinel x s
  | .feedUplinkStart x => Sys2Proof.Machine.execFeedUplinkStart x s
  | .feedIdle x => Sys2Proof.Machine.execFeedIdle x s
  | .feedLenOk x => Sys2Proof.Machine.execFeedLenOk x s
  | .feedLenBad x => Sys2Proof.Machine.execFeedLenBad x s
  | .feedTypeCtrl x => Sys2Proof.Machine.execFeedTypeCtrl x s
  | .feedTypeDl x => Sys2Proof.Machine.execFeedTypeDl x s
  | .feedTypeUnk x => Sys2Proof.Machine.execFeedTypeUnk x s
  | .feedData x => Sys2Proof.Machine.execFeedData x s
  | .feedDataLast x => Sys2Proof.Machine.execFeedDataLast x s
  | .feedUplType x => Sys2Proof.Machine.execFeedUplType x s
  | .feedUplData x => Sys2Proof.Machine.execFeedUplData x s
  | .feedIllegal st x => Sys2Proof.Machine.execFeedIllegal st x s
  | .reset cfg => Sys2Proof.Machine.execReset cfg s

end Sys2Proof.Machine
end

