-- ==== Sys2Proof/Machine/Labels.lean ====
section
/-! DEFINITION. The tag codes and the label text of a record (30_encoding.md R53 to R55), and the source's annotation. -/

namespace Sys2Proof.Machine

/-- The tag codes (30_encoding.md R53). -/
def Tag.code : Tag → BitVec 5
  | .head => 0
  | .len => 1
  | .typeControl => 2
  | .typeDownlink => 3
  | .typeUnknown => 4
  | .startControl => 5
  | .startDownlink => 6
  | .startUnknown => 7
  | .channel => 8
  | .failsafe => 9
  | .lostFrame => 10
  | .ch18 => 11
  | .ch17 => 12
  | .flags => 13
  | .rssiVal => 14
  | .rssi => 15
  | .crcVal => 16
  | .crc => 17
  | .finish => 18

/-- `Dec(k)`: the decimal numeral (30_encoding.md R55). -/
def dec (k : Nat) : String := Nat.repr k

/-- `<bool v>` (30_encoding.md R54). The rule gives v = 1 and v = 0 alone; that any other v, which no record of these tags has,
shows as `false` is the model's choice (DESIGN CHOICE, log 23). -/
def boolText (v : BitVec 11) : String := if v = 1 then "true" else "false"

/-- `Label(tag, n, v)` (30_encoding.md R53, R54). -/
def label (tag : Tag) (n : BitVec 8) (v : BitVec 11) : String :=
  match tag with
  | .head => "Head"
  | .len => "Len:" ++ dec v.toNat
  | .typeControl => "Type:control"
  | .typeDownlink => "Type:downlink"
  | .typeUnknown => "Type:unknown"
  | .startControl => "Control start"
  | .startDownlink => "Downlink start"
  | .startUnknown => "Unknown frame"
  | .channel => "ch" ++ dec n.toNat ++ ":" ++ dec v.toNat
  | .failsafe => "failsafe:" ++ boolText v
  | .lostFrame => "lost frame:" ++ boolText v
  | .ch18 => "ch18:" ++ boolText v
  | .ch17 => "ch17:" ++ boolText v
  | .flags => "Flags"
  | .rssiVal => "RSSI:" ++ dec v.toNat
  | .rssi => "RSSI"
  | .crcVal => "CRC:" ++ dec v.toNat
  | .crc => "CRC"
  | .finish => "End"

/-- The source's annotation `{start_time, end_time, label}` (30_encoding.md R52). -/
structure LabelledSpan where
  startTime : Time
  endTime : Time
  label : String
  deriving DecidableEq, Repr

/-- The source's annotation of a record (30_encoding.md R52). -/
def Annotation.labelled (a : Annotation) : LabelledSpan := ⟨a.start, a.stop, label a.tag a.n a.v⟩

end Sys2Proof.Machine
end

