-- ==== Sys2Proof/Machine/Ports.lean ====
section
/-! DEFINITION. The ports (30_encoding.md R58 to R60) as views of the state, the time words they carry, and the transfer
of one record to the consumer. -/

namespace Sys2Proof.Machine

/-- `st_state[2:0]` (10_state.md R27). -/
def State.stState (s : State) : BitVec 3 := s.state.code

/-- The output FIFO: the oldest `OUT_FIFO_DEPTH` records on their way out (30_encoding.md R59; log 6). -/
def State.fifo (s : State) : List OutRecord := s.outQueue.take Config.outFifoDepth

/-- The records of the batch still waiting for room in the FIFO (log 6). -/
def State.batchPending (s : State) : List OutRecord := s.outQueue.drop Config.outFifoDepth

/-- `in_ready` outside reset (30_encoding.md R58): every record of the last byte's batch has been handed over (log 7). -/
def State.inReady (s : State) : Bool := s.outQueue.isEmpty

/-- `out_valid` (30_encoding.md R59). -/
def State.outValid (s : State) : Bool := !s.fifo.isEmpty

/-- The record at the output port, with `out_last` (30_encoding.md R59): its times exact, as the model has them; the words of
`out_start` and `out_end` are `State.outStart` and `State.outEnd`. -/
def State.outPort (s : State) : Option OutRecord := s.fifo.head?

/-! ### Time words (00_scope.md R7, 10_state.md R15)

The model's own times are exact. These are the words of a hardware realisation, which the ports carry. -/

/-- The time a fixed-point word of `TIME_W` bits with `TIME_FRAC` fraction bits stands for (10_state.md R15; log 1). -/
def wordTime (w : BitVec Config.timeW) : Time := (w.toNat : Time) / 2 ^ Config.timeFrac

/-- The word that stands for a time, where there is one. -/
def timeWord (t : Time) : Option (BitVec Config.timeW) :=
  let w := BitVec.ofInt Config.timeW (t * 2 ^ Config.timeFrac).floor
  if wordTime w = t then some w else none

/-- The element that `in_value`, `in_start` and `in_end` carry (30_encoding.md R58). -/
def portElement (value : Byte) (inStart inEnd : BitVec Config.timeW) : TimestampedByte :=
  ⟨value, wordTime inStart, wordTime inEnd⟩

/-- Which times of a record are derived (42_time.md R99), and not the time of an input byte: those of a channel
(42_time.md R91) and of the fine trailer, but for the end of its last span, which is the flags byte's (42_time.md R93). -/
def Tag.derivedTime : Tag → TimeEdge → Bool
  | .channel, _ | .failsafe, _ | .lostFrame, _ | .ch18, _ | .ch17, .start => true
  | .ch17, .stop | .head, _ | .len, _ | .typeControl, _ | .typeDownlink, _ | .typeUnknown, _ | .startControl, _
  | .startDownlink, _ | .startUnknown, _ | .flags, _ | .rssiVal, _ | .rssi, _ | .crcVal, _ | .crc, _ | .finish, _ => false

/-- A time of a record, exactly (10_state.md R15). -/
def Annotation.exactTime (a : Annotation) : TimeEdge → Time
  | .start => a.start
  | .stop => a.stop

/-- The word a hardware realisation gives for a time of a record: an input time's own word, and for a derived time the word that
the block's rounding gives, which is free (42_time.md R99; log 24). -/
def Annotation.portTime (a : Annotation) (edge : TimeEdge) : BitVec Config.timeW :=
  match if a.tag.derivedTime edge then none else timeWord (a.exactTime edge) with
  | some w => w
  | none => Config.roundTime a.tag.code a.n a.start a.stop edge

/-- `out_start[TIME_W-1:0]`, while `out_valid` is 1 (30_encoding.md R59). -/
def State.outStart (s : State) : Option (BitVec Config.timeW) := s.outPort.map fun r => r.record.portTime .start

/-- `out_end[TIME_W-1:0]`, while `out_valid` is 1 (30_encoding.md R59). -/
def State.outEnd (s : State) : Option (BitVec Config.timeW) := s.outPort.map fun r => r.record.portTime .stop

/-! ### The transfer of a record -/

/-- `out_ready` for one transfer (30_encoding.md R59): the record at the port is handed to the consumer; with `out_valid` 0
nothing is (log 21). -/
def State.takeRecord (s : State) : State :=
  match s.outPort with
  | some r => { s with outQueue := s.outQueue.tail, taken := s.taken ++ [r] }
  | none => s

end Sys2Proof.Machine
end

