-- ==== Sys2Proof/Machine/Feed.lean ====
section
/-! DEFINITION. Choosing the next thing that happens: the spec's `Step` on one input element, its fold over a stream, and the
host's next move. -/

namespace Sys2Proof.Machine

/-- What Decode reads of the session and the configuration (30_encoding.md R43, R46). -/
def State.decodeCtx (s : State) : DecodeCtx := ⟨s.cfg.minValidPayloadLen, s.bufLen, s.expectedLength⟩

/-- The input word an element makes in this state (30_encoding.md R43). -/
def State.fetchWord (s : State) (x : TimestampedByte) : PortInput := .word (inputWord s.state x.value) x.start x.stop

/-- `Step(cfg, s, x)` (00_scope.md R11, 40_framing.md R61): decode the element's word and run the operation. Where Decode reads
an absent field the step raises NONE_READ, after the checks of R61 (60_exceptions.md R120). -/
def feedOne (x : TimestampedByte) (s : State) : Result :=
  match decode s.decodeCtx (s.fetchWord x) with
  | .ok i => exec i s
  | .error f => runElement x (fun _ => .error (noneRead f)) s

/-- The fold of `Step` over an input stream (00_scope.md R11, 70_reset_and_hazards.md R134). -/
def feedAll : List TimestampedByte → State → Result
  | [], s => .next s
  | x :: rest, s =>
    match feedOne x s with
    | .next t => feedAll rest t
    | .fault f => .fault f
    | .refused r => .refused r

/-- What happens next: nothing but the change shown, an element is consumed, or an operation of the control ports runs. -/
inductive Turn where
  | wait (s : State)
  | element (x : TimestampedByte) (s : State)
  | control (i : Instr) (s : State)
  deriving DecidableEq, Repr

/-- The operation `rst` selects as it falls with a value of `cfg_variant` (70_reset_and_hazards.md R125). -/
def resetInstr (v : BitVec 1) : Instr := .reset (portRecord v)

/-- The move the host makes next, and the moves then still to come. While `in_ready` is 0 the elements to feed are held at the
input port, in their order (70_reset_and_hazards.md R129), and hold up no other port: the first move that feeds nothing is made
(30_encoding.md R58 to R60, 70_reset_and_hazards.md R130; log 4). -/
def nextMove (ready : Bool) : List HostMove → Option (HostMove × List HostMove)
  | [] => none
  | .feed x :: rest =>
    if ready then some (.feed x, rest) else (nextMove ready rest).map fun p => (p.1, .feed x :: p.2)
  | .take :: rest => some (.take, rest)
  | .reset v :: rest => some (.reset v, rest)
  | .construct cfg :: rest => some (.construct cfg, rest)

/-- What the host's next move brings about (70_reset_and_hazards.md R130; log 4). With none to make the block waits with all
state kept (60_exceptions.md R123). -/
def nextTurn (s : State) : Turn :=
  match nextMove s.inReady s.host with
  | none => .wait s
  | some (.feed x, rest) => .element x { s with host := rest }
  | some (.take, rest) => .wait { s with host := rest }.takeRecord
  | some (.reset v, rest) => .control (resetInstr v) { s with host := rest }
  | some (.construct cfg, rest) => .control (.reset cfg) { s with host := rest }

/-- The session in which a bare opcode-table word of a state is read (log 13), as `tableCtx` says. -/
def State.atTableState (s : State) (st : FsmState) : State :=
  { s with
    state := st
    expectedLength := if st = .waitForType ∨ st = .readData then some 27 else none
    frameType := if st = .readData then some .control else none
    buf := []
    headerStartTime := if st = .waitForLen ∨ st = .waitForType ∨ st = .readData then some 0 else none
    cfg := if st = .waitForLen then { s.cfg with minValidPayloadLen := 9 } else s.cfg
    lastEnd := none
    fault := none
    refused := ⟨false, false⟩
    outQueue := [] }

/-- The word of the opcode table stored where the next step reads its input: the state its bits 10 to 8 name, and its byte as
the host's next element (log 13). -/
def State.placeTableWord (s : State) (w : Nat) : State :=
  let word := BitVec.ofNat 11 w
  let t := s.atTableState (wordState word)
  { t with host := .feed (tableElement (wordByte word)) :: s.host }

end Sys2Proof.Machine
end

