-- ==== Sys2Proof/Machine/Step.lean ====
section
/-! DEFINITION. One step of the machine: the host's next move. -/

namespace Sys2Proof.Machine

/-- One step (00_scope.md R11, 70_reset_and_hazards.md R130; log 4). -/
def step (s : State) : Host.Outcome State Fault Refusal :=
  match nextTurn s with
  | .wait t => .next t
  | .element x t => feedOne x t
  | .control i t => exec i t

/-- A word of the opcode table stored where `step` reads its next input (log 13). The table gives every row of format FEED
all its bits, so the number of bits adds nothing. -/
def State.withFetchWord (s : State) (_nbits w : Nat) : State := s.placeTableWord w

end Sys2Proof.Machine
end

