-- ==== Sys2Proof/Safety.lean ====
section
/-! DEFINITION. What counts as a legal state, a legal input stream, a clean launch and a clean run, in the terms the claims
use. -/

namespace Sys2Proof.Machine

/-! ### Input -/

/-- The step consumes `x` and performs its operation: no fault is recorded, no configuration was refused (60_exceptions.md R113,
R124), and the element meets the input contract (60_exceptions.md R112). -/
def Accepts (s : State) (x : TimestampedByte) : Prop :=
  s.fault = none ∧ s.refused.config = false ∧ x.start < x.stop ∧ ∀ e, s.lastEnd = some e → e ≤ x.start

/-- A stream that meets the input contract after a byte that ended at `lastEnd` (60_exceptions.md R112). -/
def StreamInOrder : Option Time → List TimestampedByte → Prop
  | _, [] => True
  | lastEnd, x :: rest => x.start < x.stop ∧ (∀ e, lastEnd = some e → e ≤ x.start) ∧ StreamInOrder (some x.stop) rest

/-! ### Invariants -/

/-- The states in which a frame's header or payload is being read. -/
def InFrame (st : FsmState) : Prop := st = .waitForLen ∨ st = .waitForType ∨ st = .readData

/-- The invariant of the session, clause by clause (10_state.md R22). -/
structure SessionInv (s : State) : Prop where
  bufOnlyInReadData : 0 < s.bufLen → s.state = .readData
  expectedPresent : s.expectedLength.isSome ↔ s.state = .waitForType ∨ s.state = .readData
  frameTypePresent : s.frameType.isSome ↔ s.state = .readData
  headerStartPresent : s.headerStartTime.isSome ↔ InFrame s.state
  bufBelowExpected : s.state = .readData → ∀ e, s.expectedLength = some e → s.bufLen < e.toNat

/-- The state register holds no reserved code (30_encoding.md R44), the configuration is admitted unless it was refused
(60_exceptions.md R124), and a present `expected_length` lies between the variant's minimum and 256 (10_state.md R17,
40_framing.md R65). -/
structure RangeInv (s : State) : Prop where
  notReserved : s.state ≠ .reserved6 ∧ s.state ≠ .reserved7
  configAdmitted : s.refused.config = false → admitted s.cfg = true
  expectedRange : ∀ e, s.expectedLength = some e → s.cfg.minValidPayloadLen.toNat ≤ e.toNat ∧ e.toNat ≤ 256

/-- What holds in every state the block reaches. -/
def Inv (s : State) : Prop := SessionInv s ∧ RangeInv s

/-- Bytes that occupy time and do not overlap (60_exceptions.md R112). -/
def BytesInOrder (bs : List TimestampedByte) : Prop :=
  (∀ b ∈ bs, b.start < b.stop) ∧ bs.Pairwise fun a b => a.stop ≤ b.start

/-- What the input contract makes of the times the session holds: the buffered bytes are in order, and every time lies before the
end of the last byte consumed. -/
structure TimeInv (s : State) : Prop where
  bytesInOrder : BytesInOrder s.buf
  bytesBeforeLast : ∀ b ∈ s.buf, ∃ e, s.lastEnd = some e ∧ b.stop ≤ e
  headerBeforeLast : ∀ h, s.headerStartTime = some h → ∃ e, s.lastEnd = some e ∧ h < e

/-- A record's span is positive (42_time.md R96). -/
def Annotation.Positive (a : Annotation) : Prop := a.start < a.stop

/-- Every record on its way out, and every record taken, has a positive span (42_time.md R96). -/
def OutputPositive (s : State) : Prop :=
  (∀ r ∈ s.outQueue, r.record.Positive) ∧ ∀ r ∈ s.taken, r.record.Positive

/-- The records' start times do not decrease (42_time.md R98). -/
def StartTimesInOrder (out : List Annotation) : Prop := out.Pairwise fun a b => a.start ≤ b.start

/-! ### Runs -/

/-- `CleanLaunch(cfg, s)` (70_reset_and_hazards.md R136), its five premises in order. -/
structure CleanLaunch (cfg : ProtocolVariant) (s : State) : Prop where
  cfgAdmitted : admitted cfg = true
  atReset : s.cfg = cfg ∧ s.state = .waitForFirstByte ∧ s.expectedLength = none ∧ s.frameType = none ∧
    s.headerStartTime = none ∧ s.bufLen = 0 ∧ s.lastEnd = none
  noFault : s.fault = none
  nothingRefused : s.refused = ⟨false, false⟩
  nothingInFlight : s.fifo = [] ∧ s.batchPending = []

/-- A run that ended in `s` is clean (70_reset_and_hazards.md R134). -/
def CleanRun (s : State) : Prop := s.fault = none ∧ s.refused = ⟨false, false⟩

/-! ### Packing -/

/-- Values packed little-endian-first: `sum of a(i) << 11(i-1)` (41_unpacker.md R87). -/
def packed : List (BitVec 11) → Nat
  | [] => 0
  | a :: rest => a.toNat + 2048 * packed rest

end Sys2Proof.Machine
end

