-- ==== Sys2Proof/Certificates/Slice0/Obligations.lean ====
section
/-! DEFINITION. The statements for the provers. Each docstring names the rule or the sections of spec/ it formalises. -/

open Sys2Proof Sys2Proof.Machine

/-! ### The operations, one statement each: the word that selects it, and its next state -/

/-- 40_framing.md R62. -/
def Obligations.SentinelStartsFrame : Prop :=
  ∀ (s : State) (x : TimestampedByte),
    (s.state = .waitForFirstByte → x.value = 0x7E →
      inputWord s.state x.value = 0x07E ∧ decode s.decodeCtx (s.fetchWord x) = .ok (.feedSentinel x)) ∧
    (Accepts s x →
      exec (.feedSentinel x) s = .next
        { s with
          headerStartTime := some x.start
          state := .waitForLen
          lastEnd := some x.stop
          outQueue := s.outQueue ++
            if s.cfg.headerMerge then [] else [⟨⟨.head, 0, 0, x.start, x.stop⟩, true⟩] })

/-- 40_framing.md R63. -/
def Obligations.UplinkStartEntersBranch : Prop :=
  ∀ (s : State) (x : TimestampedByte),
    (s.state = .waitForFirstByte → x.value = 0x08 →
      inputWord s.state x.value = 0x008 ∧ decode s.decodeCtx (s.fetchWord x) = .ok (.feedUplinkStart x)) ∧
    (Accepts s x →
      exec (.feedUplinkStart x) s = .next { s with state := .waitForUplinkType, lastEnd := some x.stop })

/-- 40_framing.md R64. -/
def Obligations.IdleByteIsIgnored : Prop :=
  ∀ (s : State) (x : TimestampedByte),
    (s.state = .waitForFirstByte → x.value ≠ 0x7E → x.value ≠ 0x08 →
      inputWord s.state x.value &&& 0x700 = 0x000 ∧ decode s.decodeCtx (s.fetchWord x) = .ok (.feedIdle x)) ∧
    (Accepts s x → exec (.feedIdle x) s = .next { s with lastEnd := some x.stop })

/-- 40_framing.md R65. -/
def Obligations.ValidLengthIsAccepted : Prop :=
  ∀ (s : State) (x : TimestampedByte),
    (s.state = .waitForLen → s.cfg.minValidPayloadLen.toNat ≤ x.value.toNat + 1 →
      inputWord s.state x.value &&& 0x700 = 0x100 ∧ decode s.decodeCtx (s.fetchWord x) = .ok (.feedLenOk x)) ∧
    (Accepts s x →
      ∃ e : BitVec 9, e.toNat = x.value.toNat + 1 ∧
        exec (.feedLenOk x) s = .next
          { s with
            expectedLength := some e
            buf := []
            state := .waitForType
            lastEnd := some x.stop
            outQueue := s.outQueue ++
              if s.cfg.headerMerge then []
              else [⟨⟨.len, 0, BitVec.ofNat 11 x.value.toNat, x.start, x.stop⟩, true⟩] })

/-- 40_framing.md R66. -/
def Obligations.ShortLengthAbandonsFrame : Prop :=
  ∀ (s : State) (x : TimestampedByte),
    (s.state = .waitForLen → x.value.toNat + 1 < s.cfg.minValidPayloadLen.toNat →
      inputWord s.state x.value &&& 0x700 = 0x100 ∧ decode s.decodeCtx (s.fetchWord x) = .ok (.feedLenBad x)) ∧
    (Accepts s x →
      exec (.feedLenBad x) s = .next
        { s with
          state := .waitForFirstByte
          expectedLength := none
          frameType := none
          headerStartTime := none
          buf := []
          lastEnd := some x.stop })

/-- 40_framing.md R67. The premise on `expectedLength` is 10_state.md R22's in this state: the operation reads the field
(R30; log 22), and `AbsentFieldFaults` says what it does where the field is absent. -/
def Obligations.ControlTypeByte : Prop :=
  ∀ (s : State) (x : TimestampedByte),
    (s.state = .waitForType → x.value = 0x00 →
      inputWord s.state x.value = 0x200 ∧ decode s.decodeCtx (s.fetchWord x) = .ok (.feedTypeCtrl x)) ∧
    (Accepts s x → s.expectedLength ≠ none → s.cfg.headerMerge = false →
      exec (.feedTypeCtrl x) s = .next
        { s with
          frameType := some .control
          state := .readData
          lastEnd := some x.stop
          outQueue := s.outQueue ++ [⟨⟨.typeControl, 0, 0, x.start, x.stop⟩, true⟩] }) ∧
    (∀ t0, Accepts s x → s.expectedLength ≠ none → s.cfg.headerMerge = true → s.headerStartTime = some t0 →
      exec (.feedTypeCtrl x) s = .next
        { s with
          frameType := some .control
          state := .readData
          lastEnd := some x.stop
          outQueue := s.outQueue ++ [⟨⟨.startControl, 0, 0, t0, x.stop⟩, true⟩] })

/-- 40_framing.md R68. The premise on `expectedLength` is 10_state.md R22's in this state: the operation reads the field
(R30; log 22), and `AbsentFieldFaults` says what it does where the field is absent. -/
def Obligations.DownlinkTypeByte : Prop :=
  ∀ (s : State) (x : TimestampedByte),
    (s.state = .waitForType → x.value = 0x01 →
      inputWord s.state x.value = 0x201 ∧ decode s.decodeCtx (s.fetchWord x) = .ok (.feedTypeDl x)) ∧
    (Accepts s x → s.expectedLength ≠ none → s.cfg.headerMerge = false →
      exec (.feedTypeDl x) s = .next
        { s with
          frameType := some .downlinkData
          state := .readData
          lastEnd := some x.stop
          outQueue := s.outQueue ++ [⟨⟨.typeDownlink, 0, 0, x.start, x.stop⟩, true⟩] }) ∧
    (∀ t0, Accepts s x → s.expectedLength ≠ none → s.cfg.headerMerge = true → s.headerStartTime = some t0 →
      exec (.feedTypeDl x) s = .next
        { s with
          frameType := some .downlinkData
          state := .readData
          lastEnd := some x.stop
          outQueue := s.outQueue ++ [⟨⟨.startDownlink, 0, 0, t0, x.stop⟩, true⟩] })

/-- 40_framing.md R69. The premise on `expectedLength` is 10_state.md R22's in this state: the operation reads the field
(R30; log 22), and `AbsentFieldFaults` says what it does where the field is absent. -/
def Obligations.UnknownTypeByte : Prop :=
  ∀ (s : State) (x : TimestampedByte),
    (s.state = .waitForType → x.value ≠ 0x00 → x.value ≠ 0x01 →
      inputWord s.state x.value &&& 0x700 = 0x200 ∧ decode s.decodeCtx (s.fetchWord x) = .ok (.feedTypeUnk x)) ∧
    (Accepts s x → s.expectedLength ≠ none → s.cfg.headerMerge = false →
      exec (.feedTypeUnk x) s = .next
        { s with
          frameType := some .unknown
          state := .readData
          lastEnd := some x.stop
          outQueue := s.outQueue ++ [⟨⟨.typeUnknown, 0, 0, x.start, x.stop⟩, true⟩] }) ∧
    (∀ t0, Accepts s x → s.expectedLength ≠ none → s.cfg.headerMerge = true → s.headerStartTime = some t0 →
      exec (.feedTypeUnk x) s = .next
        { s with
          frameType := some .unknown
          state := .readData
          lastEnd := some x.stop
          outQueue := s.outQueue ++ [⟨⟨.startUnknown, 0, 0, t0, x.stop⟩, true⟩] })

/-- 40_framing.md R70. The buffer has 256 entries (10_state.md R19): the premise on `bufLen` is the free entry. -/
def Obligations.PayloadByteIsAppended : Prop :=
  ∀ (s : State) (x : TimestampedByte),
    (∀ e, s.state = .readData → s.expectedLength = some e → s.bufLen + 1 < e.toNat →
      inputWord s.state x.value &&& 0x700 = 0x300 ∧ decode s.decodeCtx (s.fetchWord x) = .ok (.feedData x)) ∧
    (Accepts s x → s.bufLen < 256 →
      exec (.feedData x) s = .next { s with buf := s.buf ++ [x], lastEnd := some x.stop })

/-- 40_framing.md R71, with `out_last` on the final record of the batch alone (30_encoding.md R59); which records `processFrame` gives is stated by the statements about 43_trailer.md R101 to R104. -/
def Obligations.LastPayloadByteCompletesFrame : Prop :=
  ∀ (s : State) (x : TimestampedByte),
    (∀ e, s.state = .readData → s.expectedLength = some e → s.bufLen + 1 = e.toNat →
      inputWord s.state x.value &&& 0x700 = 0x300 ∧ decode s.decodeCtx (s.fetchWord x) = .ok (.feedDataLast x)) ∧
    (∀ ft, Accepts s x → s.bufLen < 256 → s.frameType = some ft → (ft = .control → 2 ≤ s.bufLen) →
      ∃ front last, processFrame s.cfg (some ft) (s.buf ++ [x]) = .ok (front ++ [last]) ∧
        exec (.feedDataLast x) s = .next
          { s with
            state := .waitForFirstByte
            expectedLength := none
            frameType := none
            headerStartTime := none
            buf := []
            lastEnd := some x.stop
            outQueue := s.outQueue ++ front.map (fun r => ⟨r, false⟩) ++ [⟨last, true⟩] })

/-- 60_exceptions.md R115. -/
def Obligations.UplinkTypeByte : Prop :=
  ∀ (s : State) (x : TimestampedByte),
    (s.state = .waitForUplinkType →
      inputWord s.state x.value &&& 0x700 = 0x400 ∧ decode s.decodeCtx (s.fetchWord x) = .ok (.feedUplType x)) ∧
    (Accepts s x →
      exec (.feedUplType x) s = .next
        { s with
          state := .waitForUplinkData
          refused := { s.refused with uplink := true }
          lastEnd := some x.stop })

/-- 60_exceptions.md R116. -/
def Obligations.UplinkDataByte : Prop :=
  ∀ (s : State) (x : TimestampedByte),
    (s.state = .waitForUplinkData →
      inputWord s.state x.value &&& 0x700 = 0x500 ∧ decode s.decodeCtx (s.fetchWord x) = .ok (.feedUplData x)) ∧
    (Accepts s x →
      exec (.feedUplData x) s = .next
        { s with
          state := .waitForFirstByte
          expectedLength := none
          frameType := none
          headerStartTime := none
          buf := []
          refused := { s.refused with uplink := true }
          lastEnd := some x.stop })

/-- 60_exceptions.md R117. -/
def Obligations.IllegalStateFaults : Prop :=
  ∀ (s : State) (x : TimestampedByte),
    (s.state = .reserved6 ∨ s.state = .reserved7 →
      inputWord s.state x.value &&& 0x600 = 0x600 ∧
        decode s.decodeCtx (s.fetchWord x) = .ok (.feedIllegal s.state x)) ∧
    (∀ e, s.state = .readData → s.expectedLength = some e → e.toNat < s.bufLen + 1 →
      decode s.decodeCtx (s.fetchWord x) = .ok (.feedIllegal .readData x)) ∧
    (∀ st, Accepts s x →
      exec (.feedIllegal st x) s = .next { s with fault := some (.illegalState st.code) })

/-- 70_reset_and_hazards.md R125 and R126, with the CONFIG mark of 60_exceptions.md R124. That the records
taken and the host's moves stay is the model's choice (log 14). -/
def Obligations.BlockResetFromAnyState : Prop :=
  ∀ (s : State) (cfg : ProtocolVariant),
    ∃ t, exec (.reset cfg) s = .next t ∧
      t.state = .waitForFirstByte ∧ t.expectedLength = none ∧ t.frameType = none ∧ t.headerStartTime = none ∧
      t.buf = [] ∧ t.outQueue = [] ∧ t.lastEnd = none ∧ t.fault = none ∧ t.cfg = cfg ∧
      t.refused.uplink = false ∧
      (t.refused.config = false ↔
        cfg = variantRecord Config.minLenAssign .fixed ∨ cfg = variantRecord Config.minLenAssign .measured) ∧
      t.taken = s.taken ∧ t.host = s.host

/-! ### Faults, refusals and the step procedure -/

/-- 60_exceptions.md R112. -/
def Obligations.InputOutOfOrderFaults : Prop :=
  ∀ (s : State) (x : TimestampedByte), s.fault = none → s.refused.config = false →
    (¬ x.start < x.stop ∨ ∃ e, s.lastEnd = some e ∧ x.start < e) →
      feedOne x s = .next { s with fault := some (.inputOrder x) }

/-- 40_framing.md R61 and 60_exceptions.md R113, R124: after a fault, or a refused configuration, no FEED operation does
anything. That the element offered is passed over, and not held, is the model's reading (log 9). -/
def Obligations.HaltedBlockTakesNoStep : Prop :=
  ∀ (s : State), (s.fault ≠ none ∨ s.refused.config = true) →
    (∀ x, feedOne x s = .next s) ∧ ∀ i, (∀ cfg, i ≠ .reset cfg) → exec i s = .next s

/-- 60_exceptions.md R120: the order of the checks. -/
def Obligations.ChecksAreMadeInOrder : Prop :=
  ∀ (s : State) (x : TimestampedByte),
    (s.fault ≠ none → feedOne x s = .next s) ∧
    (s.fault = none → s.refused.config = false → ¬ Accepts s x →
      feedOne x s = .next { s with fault := some (.inputOrder x) }) ∧
    (Accepts s x →
      (s.state = .reserved6 ∨ s.state = .reserved7 ∨
        s.state = .readData ∧ ∃ e, s.expectedLength = some e ∧ e.toNat < s.bufLen + 1) →
      feedOne x s = .next { s with fault := some (.illegalState s.state.code) }) ∧
    (∀ i, Accepts s x → decode s.decodeCtx (s.fetchWord x) = .ok i → feedOne x s = exec i s)

/-- 60_exceptions.md R113: a step that raises a fault changes nothing else and emits nothing. That such a
step is a next state with the field `fault` set is the model's choice (log 9). -/
def Obligations.FaultIsPrecise : Prop :=
  ∀ (s t : State) (i : Instr), exec i s = .next t → t.fault ≠ s.fault →
    (∃ cfg, i = .reset cfg) ∨ t = { s with fault := t.fault }

/-- 10_state.md R33: where a read of an absent field stops an operation. Which field is recorded, where two are absent, and that
Decode's comparison, a type byte's read of `expected_length` (R30's table) and `BufEnd` of a position before the first entry are
such reads, is the model's reading (log 12, log 19, log 22). -/
def Obligations.AbsentFieldFaults : Prop :=
  ∀ (s : State) (x : TimestampedByte), Accepts s x →
    (s.state = .readData → s.expectedLength = none →
      feedOne x s = .next { s with fault := some (.noneRead .expectedLength) }) ∧
    (s.expectedLength = none →
      ∀ i ∈ [Instr.feedTypeCtrl x, .feedTypeDl x, .feedTypeUnk x],
        exec i s = .next { s with fault := some (.noneRead .expectedLength) }) ∧
    (s.expectedLength ≠ none → s.cfg.headerMerge = true → s.headerStartTime = none →
      ∀ i ∈ [Instr.feedTypeCtrl x, .feedTypeDl x, .feedTypeUnk x],
        exec i s = .next { s with fault := some (.noneRead .headerStartTime) }) ∧
    (s.bufLen < 256 → s.frameType = none →
      exec (.feedDataLast x) s = .next { s with fault := some (.noneRead .frameType) }) ∧
    (s.bufLen < 2 → s.frameType = some .control →
      exec (.feedDataLast x) s = .next { s with fault := some (.noneRead .buf) })

/-- 20_memory.md R35 and log 11: Append has 256 entries, and the operations that append stop where there is no entry left. -/
def Obligations.FullBufferStopsAppend : Prop :=
  ∀ (s : State) (x : TimestampedByte), Accepts s x → 256 ≤ s.bufLen →
    exec (.feedData x) s = .fault .noBufferEntry ∧ exec (.feedDataLast x) s = .fault .noBufferEntry

/-- 60_exceptions.md R113, last sentence: in a state the block reaches, the input contract is the only thing that faults. -/
def Obligations.OnlyInputOrderFaults : Prop :=
  ∀ (s : State) (x : TimestampedByte), Inv s → s.fault = none →
    ∃ t, feedOne x s = .next t ∧ (t.fault = none ∨ t.fault = some (.inputOrder x))

/-! ### Encoding -/

/-- 30_encoding.md R43, R46: no bit of an encoding is dropped. -/
def Obligations.DecodeOfEncodeIsTheInstruction : Prop :=
  ∀ (c : DecodeCtx) (i : Instr), i.wf = true → c.selects i = true → decode c (encode i) = .ok i

/-- 30_encoding.md R46: every state code and every byte selects exactly one operation. -/
def Obligations.EveryWordSelectsOneOperation : Prop :=
  ∀ (c : DecodeCtx) (w : BitVec 11) (t0 t1 : Time), (wordState w = .readData → c.expected.isSome = true) →
    ∃ i, decode c (.word w t0 t1) = .ok i ∧ i.wf = true ∧ c.selects i = true ∧ encode i = .word w t0 t1 ∧
      ∀ j : Instr, j.wf = true → c.selects j = true → encode j = .word w t0 t1 → j = i

/-- Words written out from opcode_table.json and 95_test_vectors.md V1 to V4, V9: every state code. -/
def Obligations.SampleWordsDecode : Prop :=
  decode ⟨9, 0, none⟩ (.word 0x07E 0 1) = .ok (.feedSentinel ⟨0x7E, 0, 1⟩) ∧
  decode ⟨9, 0, none⟩ (.word 0x008 0 1) = .ok (.feedUplinkStart ⟨0x08, 0, 1⟩) ∧
  decode ⟨9, 0, none⟩ (.word 0x07F 0 1) = .ok (.feedIdle ⟨0x7F, 0, 1⟩) ∧
  decode ⟨9, 0, none⟩ (.word 0x108 1 2) = .ok (.feedLenOk ⟨0x08, 1, 2⟩) ∧
  decode ⟨13, 0, none⟩ (.word 0x10B 1 2) = .ok (.feedLenBad ⟨0x0B, 1, 2⟩) ∧
  decode ⟨9, 0, some 27⟩ (.word 0x27E 2 3) = .ok (.feedTypeUnk ⟨0x7E, 2, 3⟩) ∧
  decode ⟨9, 3, some 9⟩ (.word 0x37E 9 10) = .ok (.feedData ⟨0x7E, 9, 10⟩) ∧
  decode ⟨9, 26, some 27⟩ (.word 0x3AB 29 30) = .ok (.feedDataLast ⟨0xAB, 29, 30⟩) ∧
  decode ⟨9, 0, none⟩ (.word 0x481 1 2) = .ok (.feedUplType ⟨0x81, 1, 2⟩) ∧
  decode ⟨9, 0, none⟩ (.word 0x57E 2 3) = .ok (.feedUplData ⟨0x7E, 2, 3⟩) ∧
  decode ⟨9, 0, none⟩ (.word 0x600 2 3) = .ok (.feedIllegal .reserved6 ⟨0x00, 2, 3⟩) ∧
  decode ⟨9, 0, none⟩ (.word 0x7FF 2 3) = .ok (.feedIllegal .reserved7 ⟨0xFF, 2, 3⟩)

/-- 40_framing.md R73. -/
def Obligations.LengthThresholdIsExact : Prop :=
  ∀ (s : State) (x : TimestampedByte), Accepts s x → s.state = .waitForLen → 0 < s.cfg.minValidPayloadLen.toNat →
    (x.value.toNat + 2 = s.cfg.minValidPayloadLen.toNat →
      ∃ t, feedOne x s = .next t ∧ t.state = .waitForFirstByte ∧ t.buf = [] ∧ t.outQueue = s.outQueue) ∧
    (x.value.toNat + 1 = s.cfg.minValidPayloadLen.toNat →
      ∃ t, feedOne x s = .next t ∧ t.state = .waitForType ∧ ∃ e, t.expectedLength = some e ∧
        e.toNat = s.cfg.minValidPayloadLen.toNat)

/-! ### The step and the ports -/

/-- 00_scope.md R11, 30_encoding.md R58: with `in_ready` 1, the host's element is decoded in the present state and its operation
is run, the host's move being used up. The list of the host's moves, and `in_ready` read off the queue, are the model's (log 4,
log 7). -/
def Obligations.StepRunsDecodedInstruction : Prop :=
  ∀ (s : State) (x : TimestampedByte) (rest : List HostMove) (i : Instr),
    s.host = .feed x :: rest → s.outQueue = [] →
    decode s.decodeCtx (.word (inputWord s.state x.value) x.start x.stop) = .ok i →
      step s = exec i { s with host := rest }

/-- 70_reset_and_hazards.md R125, R130 and 60_exceptions.md R124: the reset move runs RESET with the record of `cfg_variant`, and
the construction with its record, whatever else is going on and ahead of any elements held at the input port. That the whole
interval of `rst` is one move, that a construction is one, and the list of moves are the model's choice (log 4, log 8, log 15). -/
def Obligations.ResetMoveRunsReset : Prop :=
  ∀ (s : State) (held : List TimestampedByte) (rest : List HostMove), (held = [] ∨ s.outQueue ≠ []) →
    (∀ v : BitVec 1, s.host = held.map .feed ++ .reset v :: rest →
      step s = exec (.reset (variantRecord Config.minLenAssign (if v = 0 then .fixed else .measured)))
        { s with host := held.map .feed ++ rest }) ∧
    (∀ cfg, s.host = held.map .feed ++ .construct cfg :: rest →
      step s = exec (.reset cfg) { s with host := held.map .feed ++ rest })

/-- 30_encoding.md R58, 70_reset_and_hazards.md R129: with no move of the host, or with nothing but elements to feed while a
record is in flight, the block keeps all its state: the elements are held. The list of the host's moves, and `in_ready` read off
the queue, are the model's (log 4, log 7). -/
def Obligations.BlockWaitsWithStateKept : Prop :=
  ∀ (s : State),
    (s.host = [] → step s = .next s) ∧
    (∀ held : List TimestampedByte, s.host = held.map .feed → s.outQueue ≠ [] → step s = .next s)

/-- 30_encoding.md R59, 70_reset_and_hazards.md R130: one record is transferred, the oldest, also while elements are held at the
input port, and nothing where `out_valid` is 0. That a move with `out_valid` 0 is used up, the one queue for FIFO and batch, and
the list of moves are the model's (log 4, log 6, log 21). -/
def Obligations.TakeTransfersOldestRecord : Prop :=
  ∀ (s : State) (held : List TimestampedByte) (rest : List HostMove), s.host = held.map .feed ++ .take :: rest →
    (∀ r more, s.outQueue = r :: more →
      s.outPort = some r ∧ s.outValid = true ∧
        step s = .next { s with host := held.map .feed ++ rest, outQueue := more, taken := s.taken ++ [r] }) ∧
    (s.outQueue = [] → held = [] → s.outValid = false ∧ step s = .next { s with host := rest })

/-- 70_reset_and_hazards.md R131: records are never reordered; R126: a reset drops those not yet taken, and nothing else does. The
one queue for FIFO and batch is the model's choice (log 6), and so are these: that the records taken and the host's moves to come
stay at a reset (log 14), that elements held at the input port stay held across one and do not hold it up (log 4), and that a
construction is a move of its own, which drops the records as a reset does (log 15). -/
def Obligations.OutputOrderIsKept : Prop :=
  ∀ (s t : State), step s = .next t →
    ((∃ new, t.taken ++ t.outQueue = s.taken ++ s.outQueue ++ new) ∨
      (t.outQueue = [] ∧ t.taken = s.taken ∧
        ∃ (held : List TimestampedByte) (m : HostMove) (rest : List HostMove), s.host = held.map .feed ++ m :: rest ∧
          t.host = held.map .feed ++ rest ∧ ((∃ v, m = .reset v) ∨ ∃ cfg, m = .construct cfg))) ∧
    ∃ more, t.taken = s.taken ++ more ∧ more.length ≤ 1

/-! ### Frames -/

/-- 10_state.md R23, R30 and 60_exceptions.md R114: what no FEED operation writes. -/
def Obligations.FeedOperationsFrame : Prop :=
  ∀ (s t : State) (i : Instr), (∀ cfg, i ≠ .reset cfg) → exec i s = .next t →
    t.cfg = s.cfg ∧ t.taken = s.taken ∧ t.host = s.host ∧ t.refused.config = s.refused.config ∧
    ((∀ x, i ≠ .feedUplType x) → (∀ x, i ≠ .feedUplData x) → t.refused = s.refused) ∧
    (s.refused.uplink = true → t.refused.uplink = true) ∧
    (∃ new, t.outQueue = s.outQueue ++ new) ∧
    ((∀ x, i ≠ .feedDataLast x) → t.outQueue.length ≤ s.outQueue.length + 1)

/-- 10_state.md R30: the session fields each operation leaves alone. -/
def Obligations.SessionFieldsFrame : Prop :=
  ∀ (s t : State) (x : TimestampedByte),
    (exec (.feedSentinel x) s = .next t →
      t.expectedLength = s.expectedLength ∧ t.frameType = s.frameType ∧ t.buf = s.buf) ∧
    (exec (.feedUplinkStart x) s = .next t ∨ exec (.feedUplType x) s = .next t →
      t.expectedLength = s.expectedLength ∧ t.frameType = s.frameType ∧ t.buf = s.buf ∧
        t.headerStartTime = s.headerStartTime ∧ t.outQueue = s.outQueue) ∧
    (exec (.feedIdle x) s = .next t →
      t.state = s.state ∧ t.expectedLength = s.expectedLength ∧ t.frameType = s.frameType ∧ t.buf = s.buf ∧
        t.headerStartTime = s.headerStartTime ∧ t.outQueue = s.outQueue) ∧
    (exec (.feedLenOk x) s = .next t → t.frameType = s.frameType ∧ t.headerStartTime = s.headerStartTime) ∧
    (exec (.feedTypeCtrl x) s = .next t ∨ exec (.feedTypeDl x) s = .next t ∨ exec (.feedTypeUnk x) s = .next t →
      t.expectedLength = s.expectedLength ∧ t.buf = s.buf ∧ t.headerStartTime = s.headerStartTime) ∧
    (exec (.feedData x) s = .next t →
      t.state = s.state ∧ t.expectedLength = s.expectedLength ∧ t.frameType = s.frameType ∧
        t.headerStartTime = s.headerStartTime ∧ t.outQueue = s.outQueue) ∧
    (exec (.feedLenBad x) s = .next t ∨ exec (.feedUplData x) s = .next t → t.outQueue = s.outQueue) ∧
    (∀ st, exec (.feedIllegal st x) s = .next t → t = { s with fault := t.fault })

/-- 10_state.md R23, 70_reset_and_hazards.md R128: the configuration changes at a reset alone. The model's choice are these: that
the move stands behind elements held at the input port at most, which stay held (log 4), and that a construction with a record is
a move of its own, at which the configuration changes too (log 15). -/
def Obligations.ConfigurationChangesAtResetOnly : Prop :=
  ∀ (s t : State), step s = .next t → t.cfg ≠ s.cfg →
    ∃ (held : List TimestampedByte) (m : HostMove) (rest : List HostMove), s.host = held.map .feed ++ m :: rest ∧
      t.host = held.map .feed ++ rest ∧ ((∃ v, m = .reset v) ∨ ∃ cfg, m = .construct cfg)

/-- 43_trailer.md R106, R111: the bytes of a payload, its CRC among them, change the batch and nothing else. -/
def Obligations.PayloadBytesDoNotChangeFraming : Prop :=
  ∀ (s t u : State) (x y : TimestampedByte) (buf : List TimestampedByte),
    Accepts s x → x.start = y.start → x.stop = y.stop → buf.length = s.buf.length →
    exec (.feedDataLast x) s = .next t → exec (.feedDataLast y) { s with buf := buf } = .next u → t.fault = none →
      { t with outQueue := [] } = { u with outQueue := [] }

/-! ### Frame processing -/

/-- 43_trailer.md R101 with the positions of R100 and the spans of 42_time.md R91 and R93 to R95. -/
def Obligations.CompletedFrameRecords : Prop :=
  ∀ (a : MinLenAssign) (v : Variant) (ft : FrameType) (buf : List TimestampedByte) (b0 f r k : TimestampedByte),
    3 ≤ buf.length → buf[0]? = some b0 → buf[buf.length - 3]? = some f → buf[buf.length - 2]? = some r →
    buf[buf.length - 1]? = some k →
      let bd : Time := match v with
        | .fixed => 1 / 115200
        | .measured => (b0.stop - b0.start) / 10
      let h := bd / 2
      let c := match v with
        | .fixed => 8 * (buf.length - 3) / 11
        | .measured => 8 * buf.length / 11
      let bit := fun (n : Nat) => if f.value.getLsbD n then (1 : BitVec 11) else 0
      let channels := (List.range c).map fun j =>
        (⟨.channel, BitVec.ofNat 8 (j + 1), channelValue buf (j + 1),
          b0.start + 11 * (j : Time) * bd, b0.start + 11 * ((j : Time) + 1) * bd⟩ : Annotation)
      let trailer := match v with
        | .fixed =>
          [(⟨.failsafe, 0, bit 3, f.stop - 4 * h, f.stop - 3 * h⟩ : Annotation),
           ⟨.lostFrame, 0, bit 2, f.stop - 3 * h, f.stop - 2 * h⟩,
           ⟨.ch18, 0, bit 1, f.stop - 2 * h, f.stop - h⟩,
           ⟨.ch17, 0, bit 0, f.stop - h, f.stop⟩,
           ⟨.rssiVal, 0, BitVec.ofNat 11 r.value.toNat, r.start, r.stop⟩]
        | .measured => [⟨.flags, 0, 0, f.start, f.stop⟩, ⟨.rssi, 0, 0, r.start, r.stop⟩]
      let crc : Annotation := match v with
        | .fixed => ⟨.crcVal, 0, BitVec.ofNat 11 k.value.toNat, k.start, k.stop⟩
        | .measured => ⟨.crc, 0, 0, k.start, k.stop⟩
      processFrame (variantRecord a v) (some ft) buf =
        .ok ((if ft = .control then channels ++ trailer else []) ++ [crc, ⟨.finish, 0, 0, k.start, k.stop⟩])

/-- 43_trailer.md R102. -/
def Obligations.FixedControlFrameLabels : Prop :=
  ∀ (a : MinLenAssign) (buf : List TimestampedByte) (f r k : TimestampedByte),
    3 ≤ buf.length → buf.length ≤ 256 → buf[buf.length - 3]? = some f → buf[buf.length - 2]? = some r →
    buf[buf.length - 1]? = some k →
      let c := 8 * (buf.length - 3) / 11
      let bool := fun (n : Nat) => if f.value.getLsbD n then "true" else "false"
      ∃ out, processFrame (variantRecord a .fixed) (some .control) buf = .ok out ∧ out.length = c + 7 ∧
        (out.map fun x => label x.tag x.n x.v) =
          ((List.range c).map fun j =>
            "ch" ++ Nat.repr (j + 1) ++ ":" ++ Nat.repr (channelValue buf (j + 1)).toNat) ++
          ["failsafe:" ++ bool 3, "lost frame:" ++ bool 2, "ch18:" ++ bool 1, "ch17:" ++ bool 0,
            "RSSI:" ++ Nat.repr r.value.toNat, "CRC:" ++ Nat.repr k.value.toNat, "End"]

/-- 43_trailer.md R103. -/
def Obligations.MeasuredControlFrameLabels : Prop :=
  ∀ (a : MinLenAssign) (buf : List TimestampedByte), 3 ≤ buf.length → buf.length ≤ 256 →
    let c := 8 * buf.length / 11
    ∃ out, processFrame (variantRecord a .measured) (some .control) buf = .ok out ∧ out.length = c + 4 ∧
      (out.map fun x => label x.tag x.n x.v) =
        ((List.range c).map fun j =>
          "ch" ++ Nat.repr (j + 1) ++ ":" ++ Nat.repr (channelValue buf (j + 1)).toNat) ++
        ["Flags", "RSSI", "CRC", "End"]

/-- 43_trailer.md R104: two records, and of the buffer only its last byte is read. -/
def Obligations.OtherFramesEmitCrcAndEnd : Prop :=
  ∀ (a : MinLenAssign) (ft : FrameType) (buf : List TimestampedByte) (k : TimestampedByte),
    ft ≠ .control → buf.getLast? = some k →
      (∃ out, processFrame (variantRecord a .fixed) (some ft) buf = .ok out ∧
        (out.map fun x => label x.tag x.n x.v) = ["CRC:" ++ Nat.repr k.value.toNat, "End"]) ∧
      (∃ out, processFrame (variantRecord a .measured) (some ft) buf = .ok out ∧
        (out.map fun x => label x.tag x.n x.v) = ["CRC", "End"]) ∧
      ∀ cfg other, other.getLast? = some k → processFrame cfg (some ft) other = processFrame cfg (some ft) buf

/-- 42_time.md R95, 43_trailer.md R108: the last record of every completed frame. -/
def Obligations.EndSpansLastByte : Prop :=
  ∀ (cfg : ProtocolVariant) (ft : Option FrameType) (buf : List TimestampedByte) (out : List Annotation)
    (k : TimestampedByte), processFrame cfg ft buf = .ok out → buf.getLast? = some k →
      out.getLast? = some ⟨.finish, 0, 0, k.start, k.stop⟩ ∧
      ∃ crc ∈ out.dropLast.getLast?, crc.start = k.start ∧ crc.stop = k.stop

/-- 43_trailer.md R109. -/
def Obligations.BatchSizes : Prop :=
  (∀ (a : MinLenAssign) (v : Variant) (ft : FrameType) (buf : List TimestampedByte) (out : List Annotation),
    (minLen a v).toNat ≤ buf.length → buf.length ≤ 256 → processFrame (variantRecord a v) (some ft) buf = .ok out →
      let c := channelCount (usableBytes (variantRecord a v) buf.length)
      out.length = (if ft = .control then c + (match v with | .fixed => 7 | .measured => 4) else 2) ∧
      out.length ≤ (match v with | .fixed => 191 | .measured => 190)) ∧
  (∀ a : MinLenAssign, channelCount (usableBytes (variantRecord a .fixed) 256) = 184 ∧
    channelCount (usableBytes (variantRecord a .measured) 256) = 186) ∧
  ∀ (s t : State) (i : Instr), (∀ x, i ≠ .feedDataLast x) → exec i s = .next t →
    t.outQueue.length ≤ s.outQueue.length + 1

/-- 43_trailer.md R107 and 30_encoding.md R49, variant FIXED: two buffers that differ in bits 7 to 4 of the flags byte alone give
the same records, of whatever frame. (In variant MEASURED these bits are channel bits: 41_unpacker.md R86.) -/
def Obligations.HighFlagBitsAreIgnored : Prop :=
  ∀ (a : MinLenAssign) (ft : Option FrameType) (buf : List TimestampedByte) (f g : TimestampedByte),
    3 ≤ buf.length → buf[buf.length - 3]? = some f → f.start = g.start → f.stop = g.stop →
    f.value.extractLsb' 0 4 = g.value.extractLsb' 0 4 →
      processFrame (variantRecord a .fixed) ft (buf.set (buf.length - 3) g) = processFrame (variantRecord a .fixed) ft buf

/-! ### Unpacking -/

/-- 41_unpacker.md R79 and R81. -/
def Obligations.ChannelCountRange : Prop :=
  ∀ (a : MinLenAssign) (v : Variant) (p : Nat), (minLen a v).toNat ≤ p → p ≤ 256 →
    let u := usableBytes (variantRecord a v) p
    1 ≤ channelCount u ∧ channelCount u ≤ 186 ∧ 11 * channelCount u ≤ 8 * u ∧ 6 ≤ u ∧
    (v = .fixed → u + 3 = p) ∧ (v = .measured → u = p) ∧
    (v = .fixed → minLen a v = 9 → p = 9 → u = 6 ∧ channelCount u = 4) ∧
    (v = .fixed → minLen a v = 13 → p = 13 → u = 10 ∧ channelCount u = 7) ∧
    (v = .measured → minLen a v = 9 → p = 9 → u = 9 ∧ channelCount u = 6) ∧
    (v = .measured → minLen a v = 13 → p = 13 → u = 13 ∧ channelCount u = 9) ∧
    (v = .fixed → p = 256 → u = 253 ∧ channelCount u = 184) ∧
    (v = .measured → p = 256 → u = 256 ∧ channelCount u = 186)

/-- 41_unpacker.md R83: the loop gives the values of R82, wherever the buffer holds them. -/
def Obligations.LoopUnpacksTheBitstream : Prop :=
  ∀ (buf : List TimestampedByte) (c : Nat), 11 * c ≤ 8 * buf.length → c ≤ 186 →
    (unpackLoop c unpackerStart buf).channels = channelValues buf c

/-- 41_unpacker.md R83, R84: what the working registers hold before a byte, after it is shifted in, and after the extraction. -/
def Obligations.UnpackerRegistersHold : Prop :=
  ∀ (buf : List TimestampedByte) (c : Nat) (b : Byte), c ≤ 186 →
    let u := unpackLoop c unpackerStart buf
    u.bits.toNat ≤ 10 ∧ u.value.toNat < 2 ^ u.bits.toNat ∧ u.count.toNat = u.channels.length ∧
    (shiftIn u b).bits.toNat = u.bits.toNat + 8 ∧
    (shiftIn u b).value.toNat = u.value.toNat + b.toNat * 2 ^ u.bits.toNat

/-- 41_unpacker.md R87. -/
def Obligations.PackedValuesUnpack : Prop :=
  ∀ (buf : List TimestampedByte) (vals : List (BitVec 11)), 11 * vals.length ≤ 8 * buf.length →
    stream buf % 2 ^ (11 * vals.length) = packed vals → channelValues buf vals.length = vals

/-- 41_unpacker.md R82, 20_memory.md R37: bit j of channel i is bit `(11(i-1)+j) mod 8` of byte `(11(i-1)+j) div 8`. -/
def Obligations.ChannelBitsComeFromTheirBytes : Prop :=
  ∀ (buf : List TimestampedByte) (i j : Nat) (b : TimestampedByte), 1 ≤ i → j < 11 →
    buf[(11 * (i - 1) + j) / 8]? = some b →
      (channelValue buf i).getLsbD j = b.value.getLsbD ((11 * (i - 1) + j) % 8)

/-! ### Time -/

/-- 42_time.md R89, R90: the two strategies, and that a bit time is positive. -/
def Obligations.BitTimeByVariant : Prop :=
  ∀ (a : MinLenAssign) (b0 : TimestampedByte),
    bitTime (variantRecord a .fixed).bitDuration b0 = 1 / 115200 ∧
    bitTime (variantRecord a .measured).bitDuration b0 * 10 = b0.stop - b0.start ∧
    ∀ v, b0.start < b0.stop → 0 < bitTime (variantRecord a v).bitDuration b0

/-- 42_time.md R97. -/
def Obligations.ChannelSpansAreContiguous : Prop :=
  ∀ (buf : List TimestampedByte) (t0 bd : Time) (c : Nat), 0 < bd →
    let out := channelRecords buf t0 bd c
    (∀ i (x y : Annotation), out[i]? = some x → out[i + 1]? = some y → x.stop = y.start) ∧
    (out.Pairwise fun x y => x.stop ≤ y.start) ∧ ∀ x ∈ out, x.start < x.stop

/-- 42_time.md R98: exactly when the batch of a CONTROL frame is in start-time order. -/
def Obligations.StartOrderCondition : Prop :=
  ∀ (a : MinLenAssign) (v : Variant) (buf : List TimestampedByte) (out : List Annotation)
    (b0 f : TimestampedByte), BytesInOrder buf → 9 ≤ buf.length →
    buf[0]? = some b0 → buf[buf.length - 3]? = some f →
    processFrame (variantRecord a v) (some .control) buf = .ok out →
      let bd := bitTime (variantRecord a v).bitDuration b0
      let c := channelCount (usableBytes (variantRecord a v) buf.length)
      (StartTimesInOrder out ↔
        channelStart b0.start bd c ≤ match v with
          | .fixed => f.stop - 4 * (bd / 2)
          | .measured => f.start)

/-! ### Whole-machine rules -/

/-- 10_state.md R22 at reset (R31). -/
def Obligations.ResetMeetsInvariants : Prop :=
  Inv State.reset ∧ TimeInv State.reset ∧ OutputPositive State.reset

/-- 70_reset_and_hazards.md R125, R127 and 10_state.md R31: RESET leads from any state to the one reset state, but for what the
block does not hold, and its ports are then as they are after reset. That `State.reset` has variant FIXED is the model's choice
(log 3). -/
def Obligations.ResetReturnsToTheResetState : Prop :=
  (∀ s : State, ∃ t, exec (.reset (variantRecord Config.minLenAssign .fixed)) s = .next t ∧
    { t with taken := [], host := [] } = State.reset) ∧
  State.reset.state = .waitForFirstByte ∧ State.reset.stState = 0 ∧ State.reset.expectedLength = none ∧
  State.reset.frameType = none ∧ State.reset.bufLen = 0 ∧ State.reset.headerStartTime = none ∧
  State.reset.lastEnd = none ∧ State.reset.fault = none ∧ State.reset.refused = ⟨false, false⟩ ∧
  State.reset.fifo = [] ∧ State.reset.outValid = false ∧ State.reset.inReady = true

/-- 10_state.md R22: every step keeps the session's invariant. -/
def Obligations.StepKeepsSessionInvariant : Prop :=
  ∀ (s t : State), Inv s → step s = .next t → Inv t

/-- 42_time.md R96: every record emitted has a positive span. -/
def Obligations.StepKeepsSpansPositive : Prop :=
  ∀ (s t : State), Inv s → TimeInv s → OutputPositive s → step s = .next t → TimeInv t ∧ OutputPositive t

/-- 60_exceptions.md R118: from a state that meets the invariant the machine goes on. -/
def Obligations.StepAlwaysGoesOn : Prop :=
  ∀ (s : State), Inv s → ∃ t, step s = .next t

/-- 70_reset_and_hazards.md R136, R125: a reset with an admitted record is a clean launch, from any state. -/
def Obligations.ResetIsCleanLaunch : Prop :=
  ∀ (s : State) (v : Variant), ∃ t, exec (.reset (variantRecord Config.minLenAssign v)) s = .next t ∧
    CleanLaunch (variantRecord Config.minLenAssign v) t

/-- 40_framing.md R74: the header records of one accepted frame. -/
def Obligations.HeaderRecordsPerVariant : Prop :=
  ∀ (s : State) (x l y : TimestampedByte), s.fault = none → s.refused.config = false →
    s.state = .waitForFirstByte → StreamInOrder s.lastEnd [x, l, y] → x.value = 0x7E →
    s.cfg.minValidPayloadLen.toNat ≤ l.value.toNat + 1 →
      ∃ t, feedAll [x, l, y] s = .next t ∧ t.state = .readData ∧ t.frameType = some (classify y.value) ∧
        t.outQueue = s.outQueue ++
          if s.cfg.headerMerge then
            [⟨⟨match classify y.value with
                | .control => .startControl
                | .downlinkData => .startDownlink
                | .unknown => .startUnknown, 0, 0, x.start, y.stop⟩, true⟩]
          else
            [⟨⟨.head, 0, 0, x.start, x.stop⟩, true⟩,
             ⟨⟨.len, 0, BitVec.ofNat 11 l.value.toNat, l.start, l.stop⟩, true⟩,
             ⟨⟨match classify y.value with
                | .control => .typeControl
                | .downlinkData => .typeDownlink
                | .unknown => .typeUnknown, 0, 0, y.start, y.stop⟩, true⟩]

/-- 30_encoding.md R50: after its header a frame takes exactly E bytes, whatever their values. -/
def Obligations.FrameTakesItsLength : Prop :=
  ∀ (s : State) (e : BitVec 9) (xs : List TimestampedByte), Inv s → s.fault = none → s.refused.config = false →
    s.state = .readData → s.buf = [] → s.expectedLength = some e → xs.length = e.toNat →
    StreamInOrder s.lastEnd xs →
      (∀ k, k < xs.length → ∃ t, feedAll (xs.take k) s = .next t ∧ t.state = .readData ∧ t.buf = xs.take k ∧
        t.fault = none ∧ t.outQueue = s.outQueue) ∧
      ∃ t front last, feedAll xs s = .next t ∧ t.state = .waitForFirstByte ∧ t.buf = [] ∧ t.fault = none ∧
        processFrame s.cfg s.frameType xs = .ok (front ++ [last]) ∧
        t.outQueue = s.outQueue ++ front.map (fun r => ⟨r, false⟩) ++ [⟨last, true⟩]

/-- 40_framing.md R72: resynchronisation within 258 bytes. -/
def Obligations.ResynchronisesWithin258Bytes : Prop :=
  ∀ (s : State) (xs : List TimestampedByte), Inv s → s.fault = none → s.refused.config = false →
    s.state ≠ .waitForUplinkType → s.state ≠ .waitForUplinkData → xs.length = 258 → StreamInOrder s.lastEnd xs →
      ∃ k t, k ≤ 258 ∧ feedAll (xs.take k) s = .next t ∧ t.state = .waitForFirstByte ∧ t.fault = none

/-- 60_exceptions.md R115, R116: the uplink branch is left on its second byte, with nothing emitted and UPLINK marked. -/
def Obligations.UplinkBranchIsLeftAfterTwoBytes : Prop :=
  ∀ (s : State) (x y z : TimestampedByte), s.fault = none → s.refused.config = false →
    s.state = .waitForFirstByte → x.value = 0x08 → StreamInOrder s.lastEnd [x, y, z] →
      ∃ t, feedAll [x, y, z] s = .next t ∧ t.state = .waitForFirstByte ∧ t.refused = ⟨true, false⟩ ∧
        t.outQueue = s.outQueue ∧ t.fault = none

/-- 30_encoding.md R53, R54, R55: the code and the label text of every tag. That a flag record whose v is neither 0 nor 1 shows
`false` is the model's choice (log 23). -/
def Obligations.LabelTexts : Prop :=
  ∀ (n : BitVec 8) (v : BitVec 11),
    let bool := if v = 1 then "true" else "false"
    label .head n v = "Head" ∧ label .len n v = "Len:" ++ Nat.repr v.toNat ∧
    label .typeControl n v = "Type:control" ∧ label .typeDownlink n v = "Type:downlink" ∧
    label .typeUnknown n v = "Type:unknown" ∧ label .startControl n v = "Control start" ∧
    label .startDownlink n v = "Downlink start" ∧ label .startUnknown n v = "Unknown frame" ∧
    label .channel n v = "ch" ++ Nat.repr n.toNat ++ ":" ++ Nat.repr v.toNat ∧
    label .failsafe n v = "failsafe:" ++ bool ∧ label .lostFrame n v = "lost frame:" ++ bool ∧
    label .ch18 n v = "ch18:" ++ bool ∧ label .ch17 n v = "ch17:" ++ bool ∧
    label .flags n v = "Flags" ∧ label .rssiVal n v = "RSSI:" ++ Nat.repr v.toNat ∧ label .rssi n v = "RSSI" ∧
    label .crcVal n v = "CRC:" ++ Nat.repr v.toNat ∧ label .crc n v = "CRC" ∧ label .finish n v = "End" ∧
    [Tag.head, .len, .typeControl, .typeDownlink, .typeUnknown, .startControl, .startDownlink, .startUnknown, .channel,
      .failsafe, .lostFrame, .ch18, .ch17, .flags, .rssiVal, .rssi, .crcVal, .crc, .finish].map Tag.code =
      (List.range 19).map (BitVec.ofNat 5)
end

