-- ==== Sys2Proof/Laws/Decode.lean ====
section
/-! SUPPORT. The fields of an input word and the state codes: putting a word together and taking it apart are inverse. -/

namespace Sys2Proof

@[simp] theorem FsmState.ofCode_code (st : FsmState) : FsmState.ofCode st.code = st := by
  cases st <;> decide

@[simp] theorem FsmState.code_ofCode (c : BitVec 3) : (FsmState.ofCode c).code = c := by
  revert c; decide

/-- The bits of an input word: the byte below, the state code above (30_encoding.md R43). -/
theorem inputWord_getLsbD (st : FsmState) (b : Byte) (i : Nat) :
    (inputWord st b).getLsbD i = if i < 8 then b.getLsbD i else st.code.getLsbD (i - 8) :=
  BitVec.getLsbD_append

@[simp] theorem wordState_inputWord (st : FsmState) (b : Byte) : wordState (inputWord st b) = st := by
  have h : (inputWord st b).extractLsb' 8 3 = st.code := by
    apply BitVec.eq_of_getLsbD_eq
    intro i hi
    simp [inputWord_getLsbD, hi]
  simp [wordState, h]

@[simp] theorem wordByte_inputWord (st : FsmState) (b : Byte) : wordByte (inputWord st b) = b := by
  apply BitVec.eq_of_getLsbD_eq
  intro i hi
  simp [wordByte, inputWord_getLsbD, hi]

theorem inputWord_wordState_wordByte (w : BitVec 11) : inputWord (wordState w) (wordByte w) = w := by
  apply BitVec.eq_of_getLsbD_eq
  intro i hi
  rw [inputWord_getLsbD]
  split
  · next h => simp [wordByte, h]
  · next h =>
    simp [wordState, show i - 8 < 3 by omega, show 8 + (i - 8) = i by omega]

theorem expectedLengthOf_toNat (l : Byte) : (expectedLengthOf l).toNat = l.toNat + 1 := by
  have := l.isLt
  simp [expectedLengthOf, BitVec.toNat_add, BitVec.toNat_setWidth]
  omega

/-- The decoder on an element in a state: the one equation per state of 30_encoding.md R46. -/
theorem decode_inputWord (c : DecodeCtx) (st : FsmState) (x : TimestampedByte) :
    decode c (.word (inputWord st x.value) x.start x.stop) = decodeElement c st x := by
  simp [decode]

theorem minLen_cases (a : MinLenAssign) (v : Variant) : minLen a v = 9 ∨ minLen a v = 13 := by
  cases a <;> cases v <;> simp [minLen]

theorem minLen_ge (a : MinLenAssign) (v : Variant) : 9 ≤ (minLen a v).toNat := by
  cases a <;> cases v <;> decide

theorem portRecord_zero : portRecord 0 = variantRecord Config.minLenAssign .fixed := rfl

theorem portRecord_one : portRecord 1 = variantRecord Config.minLenAssign .measured := rfl

theorem admitted_iff (cfg : ProtocolVariant) :
    admitted cfg = true ↔ ∃ v, cfg = variantRecord Config.minLenAssign v := by
  simp only [admitted, portRecord_zero, portRecord_one, Bool.or_eq_true, beq_iff_eq]
  constructor
  · rintro (h | h)
    exacts [⟨_, h⟩, ⟨_, h⟩]
  · rintro ⟨_ | _, h⟩
    exacts [.inl h, .inr h]

theorem admitted_portRecord (v : BitVec 1) : admitted (portRecord v) = true :=
  (admitted_iff _).2 ⟨_, rfl⟩

/-- A mask over the state code sees the state code alone (30_encoding.md R43). -/
theorem inputWord_and_mask (st : FsmState) (b : Byte) (m : BitVec 11) (h : m &&& 0x0FF = 0) :
    inputWord st b &&& m = inputWord st 0 &&& m := by
  apply BitVec.eq_of_getLsbD_eq
  intro i hi
  simp only [BitVec.getLsbD_and, inputWord_getLsbD]
  split
  · next h8 =>
    have hm : (m.getLsbD i && (0x0FF : BitVec 11).getLsbD i) = false := by
      rw [← BitVec.getLsbD_and, h]; simp
    have low : ∀ i, i < 8 → (0x0FF : BitVec 11).getLsbD i = true := by decide
    rw [low i h8, Bool.and_true] at hm
    simp [hm]
  · rfl

end Sys2Proof
end

