-- ==== Sys2Proof/Laws/State.lean ====
section
/-! SUPPORT. One lemma for each field of State and each update of Machine/Ops.lean, true by definition, so that no later proof
unfolds a record update. -/

namespace Sys2Proof.Machine

@[simp] theorem State.raiseFault_state (s : State) (k : FaultKind) : (s.raiseFault k).state = s.state := rfl
@[simp] theorem State.raiseFault_expectedLength (s : State) (k : FaultKind) : (s.raiseFault k).expectedLength = s.expectedLength := rfl
@[simp] theorem State.raiseFault_frameType (s : State) (k : FaultKind) : (s.raiseFault k).frameType = s.frameType := rfl
@[simp] theorem State.raiseFault_buf (s : State) (k : FaultKind) : (s.raiseFault k).buf = s.buf := rfl
@[simp] theorem State.raiseFault_headerStartTime (s : State) (k : FaultKind) : (s.raiseFault k).headerStartTime = s.headerStartTime := rfl
@[simp] theorem State.raiseFault_cfg (s : State) (k : FaultKind) : (s.raiseFault k).cfg = s.cfg := rfl
@[simp] theorem State.raiseFault_lastEnd (s : State) (k : FaultKind) : (s.raiseFault k).lastEnd = s.lastEnd := rfl
@[simp] theorem State.raiseFault_fault (s : State) (k : FaultKind) : (s.raiseFault k).fault = some k := rfl
@[simp] theorem State.raiseFault_refused (s : State) (k : FaultKind) : (s.raiseFault k).refused = s.refused := rfl
@[simp] theorem State.raiseFault_outQueue (s : State) (k : FaultKind) : (s.raiseFault k).outQueue = s.outQueue := rfl
@[simp] theorem State.raiseFault_taken (s : State) (k : FaultKind) : (s.raiseFault k).taken = s.taken := rfl
@[simp] theorem State.raiseFault_host (s : State) (k : FaultKind) : (s.raiseFault k).host = s.host := rfl

@[simp] theorem State.refuseUplink_state (s : State) : (s.refuseUplink).state = s.state := rfl
@[simp] theorem State.refuseUplink_expectedLength (s : State) : (s.refuseUplink).expectedLength = s.expectedLength := rfl
@[simp] theorem State.refuseUplink_frameType (s : State) : (s.refuseUplink).frameType = s.frameType := rfl
@[simp] theorem State.refuseUplink_buf (s : State) : (s.refuseUplink).buf = s.buf := rfl
@[simp] theorem State.refuseUplink_headerStartTime (s : State) : (s.refuseUplink).headerStartTime = s.headerStartTime := rfl
@[simp] theorem State.refuseUplink_cfg (s : State) : (s.refuseUplink).cfg = s.cfg := rfl
@[simp] theorem State.refuseUplink_lastEnd (s : State) : (s.refuseUplink).lastEnd = s.lastEnd := rfl
@[simp] theorem State.refuseUplink_fault (s : State) : (s.refuseUplink).fault = s.fault := rfl
@[simp] theorem State.refuseUplink_refused (s : State) : (s.refuseUplink).refused = ⟨true, s.refused.config⟩ := rfl
@[simp] theorem State.refuseUplink_outQueue (s : State) : (s.refuseUplink).outQueue = s.outQueue := rfl
@[simp] theorem State.refuseUplink_taken (s : State) : (s.refuseUplink).taken = s.taken := rfl
@[simp] theorem State.refuseUplink_host (s : State) : (s.refuseUplink).host = s.host := rfl

@[simp] theorem State.frameReset_state (s : State) : (s.frameReset).state = .waitForFirstByte := rfl
@[simp] theorem State.frameReset_expectedLength (s : State) : (s.frameReset).expectedLength = none := rfl
@[simp] theorem State.frameReset_frameType (s : State) : (s.frameReset).frameType = none := rfl
@[simp] theorem State.frameReset_buf (s : State) : (s.frameReset).buf = [] := rfl
@[simp] theorem State.frameReset_headerStartTime (s : State) : (s.frameReset).headerStartTime = none := rfl
@[simp] theorem State.frameReset_cfg (s : State) : (s.frameReset).cfg = s.cfg := rfl
@[simp] theorem State.frameReset_lastEnd (s : State) : (s.frameReset).lastEnd = s.lastEnd := rfl
@[simp] theorem State.frameReset_fault (s : State) : (s.frameReset).fault = s.fault := rfl
@[simp] theorem State.frameReset_refused (s : State) : (s.frameReset).refused = s.refused := rfl
@[simp] theorem State.frameReset_outQueue (s : State) : (s.frameReset).outQueue = s.outQueue := rfl
@[simp] theorem State.frameReset_taken (s : State) : (s.frameReset).taken = s.taken := rfl
@[simp] theorem State.frameReset_host (s : State) : (s.frameReset).host = s.host := rfl

@[simp] theorem State.emit_state (s : State) (out : List Annotation) : (s.emit out).state = s.state := rfl
@[simp] theorem State.emit_expectedLength (s : State) (out : List Annotation) : (s.emit out).expectedLength = s.expectedLength := rfl
@[simp] theorem State.emit_frameType (s : State) (out : List Annotation) : (s.emit out).frameType = s.frameType := rfl
@[simp] theorem State.emit_buf (s : State) (out : List Annotation) : (s.emit out).buf = s.buf := rfl
@[simp] theorem State.emit_headerStartTime (s : State) (out : List Annotation) : (s.emit out).headerStartTime = s.headerStartTime := rfl
@[simp] theorem State.emit_cfg (s : State) (out : List Annotation) : (s.emit out).cfg = s.cfg := rfl
@[simp] theorem State.emit_lastEnd (s : State) (out : List Annotation) : (s.emit out).lastEnd = s.lastEnd := rfl
@[simp] theorem State.emit_fault (s : State) (out : List Annotation) : (s.emit out).fault = s.fault := rfl
@[simp] theorem State.emit_refused (s : State) (out : List Annotation) : (s.emit out).refused = s.refused := rfl
@[simp] theorem State.emit_outQueue (s : State) (out : List Annotation) : (s.emit out).outQueue = s.outQueue ++ markLast out := rfl
@[simp] theorem State.emit_taken (s : State) (out : List Annotation) : (s.emit out).taken = s.taken := rfl
@[simp] theorem State.emit_host (s : State) (out : List Annotation) : (s.emit out).host = s.host := rfl

@[simp] theorem State.blockReset_state (s : State) (c : ProtocolVariant) : (s.blockReset c).state = .waitForFirstByte := rfl
@[simp] theorem State.blockReset_expectedLength (s : State) (c : ProtocolVariant) : (s.blockReset c).expectedLength = none := rfl
@[simp] theorem State.blockReset_frameType (s : State) (c : ProtocolVariant) : (s.blockReset c).frameType = none := rfl
@[simp] theorem State.blockReset_buf (s : State) (c : ProtocolVariant) : (s.blockReset c).buf = [] := rfl
@[simp] theorem State.blockReset_headerStartTime (s : State) (c : ProtocolVariant) : (s.blockReset c).headerStartTime = none := rfl
@[simp] theorem State.blockReset_cfg (s : State) (c : ProtocolVariant) : (s.blockReset c).cfg = c := rfl
@[simp] theorem State.blockReset_lastEnd (s : State) (c : ProtocolVariant) : (s.blockReset c).lastEnd = none := rfl
@[simp] theorem State.blockReset_fault (s : State) (c : ProtocolVariant) : (s.blockReset c).fault = none := rfl
@[simp] theorem State.blockReset_refused (s : State) (c : ProtocolVariant) : (s.blockReset c).refused = ⟨false, !admitted c⟩ := rfl
@[simp] theorem State.blockReset_outQueue (s : State) (c : ProtocolVariant) : (s.blockReset c).outQueue = [] := rfl
@[simp] theorem State.blockReset_taken (s : State) (c : ProtocolVariant) : (s.blockReset c).taken = s.taken := rfl
@[simp] theorem State.blockReset_host (s : State) (c : ProtocolVariant) : (s.blockReset c).host = s.host := rfl

@[simp] theorem State.takeRecord_state (s : State) : (s.takeRecord).state = s.state := by
  unfold State.takeRecord; split <;> rfl
@[simp] theorem State.takeRecord_expectedLength (s : State) : (s.takeRecord).expectedLength = s.expectedLength := by
  unfold State.takeRecord; split <;> rfl
@[simp] theorem State.takeRecord_frameType (s : State) : (s.takeRecord).frameType = s.frameType := by
  unfold State.takeRecord; split <;> rfl
@[simp] theorem State.takeRecord_buf (s : State) : (s.takeRecord).buf = s.buf := by
  unfold State.takeRecord; split <;> rfl
@[simp] theorem State.takeRecord_headerStartTime (s : State) : (s.takeRecord).headerStartTime = s.headerStartTime := by
  unfold State.takeRecord; split <;> rfl
@[simp] theorem State.takeRecord_cfg (s : State) : (s.takeRecord).cfg = s.cfg := by
  unfold State.takeRecord; split <;> rfl
@[simp] theorem State.takeRecord_lastEnd (s : State) : (s.takeRecord).lastEnd = s.lastEnd := by
  unfold State.takeRecord; split <;> rfl
@[simp] theorem State.takeRecord_fault (s : State) : (s.takeRecord).fault = s.fault := by
  unfold State.takeRecord; split <;> rfl
@[simp] theorem State.takeRecord_refused (s : State) : (s.takeRecord).refused = s.refused := by
  unfold State.takeRecord; split <;> rfl
@[simp] theorem State.takeRecord_host (s : State) : (s.takeRecord).host = s.host := by
  unfold State.takeRecord; split <;> rfl

end Sys2Proof.Machine
end

