-- ==== Sys2Proof/Laws/Ops.lean ====
section
/-! SUPPORT. What the step procedure and the shared operations of Machine/Ops.lean can do, each said once. -/

namespace Sys2Proof.Machine

theorem accepts_iff (s : State) (x : TimestampedByte) :
    Accepts s x ↔ s.halted = false ∧ inputInOrder s.lastEnd x = true := by
  unfold Accepts State.halted inputInOrder
  cases s.fault <;> cases s.refused.config <;> cases s.lastEnd <;> simp

theorem halted_iff (s : State) : s.halted = true ↔ s.fault ≠ none ∨ s.refused.config = true := by
  unfold State.halted
  cases s.fault <;> simp

theorem inputInOrder_iff (lastEnd : Option Time) (x : TimestampedByte) :
    inputInOrder lastEnd x = true ↔ x.start < x.stop ∧ ∀ e, lastEnd = some e → e ≤ x.start := by
  unfold inputInOrder
  cases lastEnd <;> simp

/-! ### The step procedure (40_framing.md R61) -/

theorem runElement_ok {s t : State} {x : TimestampedByte} {op : State → OpResult} {out : List Annotation}
    (h : Accepts s x) (hop : op s = .ok (t, out)) :
    runElement x op s = .next ({ t with lastEnd := some x.stop }.emit out) := by
  obtain ⟨h1, h2⟩ := (accepts_iff s x).1 h
  simp [runElement, h1, h2, hop]

theorem runElement_fault {s : State} {x : TimestampedByte} {op : State → OpResult} {k : FaultKind}
    (h : Accepts s x) (hop : op s = .error (.fault k)) : runElement x op s = .next (s.raiseFault k) := by
  obtain ⟨h1, h2⟩ := (accepts_iff s x).1 h
  simp [runElement, h1, h2, hop]

theorem runElement_stop {s : State} {x : TimestampedByte} {op : State → OpResult} {f : Fault}
    (h : Accepts s x) (hop : op s = .error (.stop f)) : runElement x op s = .fault f := by
  obtain ⟨h1, h2⟩ := (accepts_iff s x).1 h
  simp [runElement, h1, h2, hop]

theorem runElement_halted {s : State} (x : TimestampedByte) (op : State → OpResult) (h : s.halted = true) :
    runElement x op s = .next s := by
  simp [runElement, h]

theorem runElement_outOfOrder {s : State} {x : TimestampedByte} (op : State → OpResult) (h : s.halted = false)
    (hx : inputInOrder s.lastEnd x = false) : runElement x op s = .next (s.raiseFault (.inputOrder x)) := by
  simp [runElement, h, hx]

/-- Everything a FEED operation can answer with a next state: no step, a fault taken, or the operation's own effect. -/
theorem runElement_next {s t : State} {x : TimestampedByte} {op : State → OpResult} (h : runElement x op s = .next t) :
    (s.halted = true ∧ t = s) ∨ (s.halted = false ∧ ∃ k, t = s.raiseFault k) ∨
      (Accepts s x ∧ ∃ u out, op s = .ok (u, out) ∧ t = { u with lastEnd := some x.stop }.emit out) := by
  unfold runElement at h
  split at h
  · next hh => cases h; exact .inl ⟨hh, rfl⟩
  · next hh =>
    have hh' : s.halted = false := by simpa using hh
    split at h
    · next hx =>
      split at h
      · next u out hop => cases h; exact .inr (.inr ⟨(accepts_iff s x).2 ⟨hh', hx⟩, u, out, hop, rfl⟩)
      · cases h; exact .inr (.inl ⟨hh', _, rfl⟩)
      · cases h
    · cases h; exact .inr (.inl ⟨hh', _, rfl⟩)

/-- A FEED operation stops the host interface only where its operation does. -/
theorem runElement_stops {s : State} {x : TimestampedByte} {op : State → OpResult} {f : Fault}
    (h : runElement x op s = .fault f) : Accepts s x ∧ op s = .error (.stop f) := by
  unfold runElement at h
  split at h
  · cases h
  · next hh =>
    split at h
    · next hx =>
      split at h
      · cases h
      · cases h
      · next g hop => cases h; exact ⟨(accepts_iff s x).2 ⟨by simpa using hh, hx⟩, hop⟩
    · cases h

/-- No FEED operation is refused at the host interface. -/
theorem runElement_not_refused {s : State} {x : TimestampedByte} {op : State → OpResult} {r : Refusal} :
    runElement x op s ≠ .refused r := by
  unfold runElement
  repeat' split
  all_goals simp

/-! ### The batch -/

@[simp] theorem markLast_nil : markLast [] = [] := rfl
@[simp] theorem markLast_one (a : Annotation) : markLast [a] = [⟨a, true⟩] := rfl

/-- `out_last` is 1 on the last record of a batch and on no other (30_encoding.md R59). -/
theorem markLast_append (front : List Annotation) (last : Annotation) :
    markLast (front ++ [last]) = front.map (fun r => ⟨r, false⟩) ++ [⟨last, true⟩] := by
  induction front using markLast.induct with
  | case1 => rfl
  | case2 a => rfl
  | case3 a b rest ih => simpa [markLast] using ih

theorem markLast_length (out : List Annotation) : (markLast out).length = out.length := by
  induction out using markLast.induct <;> simp_all [markLast]

theorem mem_markLast {out : List Annotation} {r : OutRecord} (h : r ∈ markLast out) : r.record ∈ out := by
  induction out using markLast.induct with
  | case1 => simp [markLast] at h
  | case2 a => simp [markLast] at h; simp [h]
  | case3 a b rest ih =>
    simp only [markLast, List.mem_cons] at h
    rcases h with rfl | h
    · simp
    · exact List.mem_cons_of_mem _ (ih (by simpa [markLast] using h))

/-! ### The payload buffer (20_memory.md R36) -/

theorem append_ok {buf : List TimestampedByte} (x : TimestampedByte) (h : buf.length < 256) :
    append buf x = .ok (buf ++ [x]) := by
  simp [append, bufDepth, h]

theorem append_full {buf : List TimestampedByte} (x : TimestampedByte) (h : 256 ≤ buf.length) :
    append buf x = .error (.stop .noBufferEntry) := by
  simp [append, bufDepth, Nat.not_lt.2 h]

theorem append_eq_ok {buf b : List TimestampedByte} {x : TimestampedByte} (h : append buf x = .ok b) :
    buf.length < 256 ∧ b = buf ++ [x] := by
  unfold append bufDepth at h
  split at h
  · next hl => cases h; exact ⟨hl, rfl⟩
  · cases h

theorem bufAt_eq {buf : List TimestampedByte} {i : Nat} {b : TimestampedByte} (h : buf[i]? = some b) :
    bufAt buf i = .ok b := by
  simp [bufAt, readField, h]

theorem bufEnd_eq {buf : List TimestampedByte} {k : Nat} {b : TimestampedByte} (hk : k ≤ buf.length)
    (h : buf[buf.length - k]? = some b) : bufEnd buf k = .ok b := by
  simp [bufEnd, hk, bufAt_eq h]

theorem bufEnd_absent {buf : List TimestampedByte} {k : Nat} (hk : buf.length < k) :
    bufEnd buf k = .error (noneRead .buf) := by
  simp [bufEnd, Nat.not_le.2 hk]

/-! ### The output port (30_encoding.md R59) -/

/-- Whatever the depth of the FIFO, the record at the port is the oldest. -/
theorem outPort_eq_head (s : State) : s.outPort = s.outQueue.head? := by
  cases h : s.outQueue <;> simp [State.outPort, State.fifo, Config.outFifoDepth, h]

/-- Taking a record hands over the oldest, or does nothing. -/
theorem takeRecord_cases (s : State) :
    (s.outQueue = [] ∧ s.takeRecord = s) ∨
      ∃ r more, s.outQueue = r :: more ∧ s.takeRecord = { s with outQueue := more, taken := s.taken ++ [r] } := by
  unfold State.takeRecord
  rw [outPort_eq_head]
  cases h : s.outQueue with
  | nil => exact .inl ⟨rfl, rfl⟩
  | cons r more => exact .inr ⟨r, more, rfl, rfl⟩

end Sys2Proof.Machine
end

