-- ==== Sys2Proof/Laws/Trailer.lean ====
section
/-! SUPPORT. When frame processing gives its records, and what they are in terms of the buffered bytes. -/

namespace Sys2Proof.Machine

/-- A CONTROL frame of at least three bytes gives its channel and trailer records. -/
theorem controlRecords_eq {cfg : ProtocolVariant} {buf : List TimestampedByte} {b0 f r : TimestampedByte}
    (h : 3 ≤ buf.length) (h0 : buf[0]? = some b0) (hf : buf[buf.length - 3]? = some f)
    (hr : buf[buf.length - 2]? = some r) :
    controlRecords cfg buf = .ok
      (channelRecords buf b0.start (bitTime cfg.bitDuration b0) (channelCount (usableBytes cfg buf.length)) ++
        trailerRecords cfg.trailerLayout f r (halfBit (bitTime cfg.bitDuration b0))) := by
  simp [controlRecords, bufEnd_eq h hf, bufEnd_eq (by omega) hr, bufAt_eq h0, bind, Except.bind, pure, Except.pure]

/-- The records of a completed CONTROL frame. -/
theorem processFrame_control {cfg : ProtocolVariant} {buf : List TimestampedByte} {b0 f r k : TimestampedByte}
    (h : 3 ≤ buf.length) (h0 : buf[0]? = some b0) (hf : buf[buf.length - 3]? = some f)
    (hr : buf[buf.length - 2]? = some r) (hk : buf[buf.length - 1]? = some k) :
    processFrame cfg (some .control) buf = .ok
      (channelRecords buf b0.start (bitTime cfg.bitDuration b0) (channelCount (usableBytes cfg buf.length)) ++
        trailerRecords cfg.trailerLayout f r (halfBit (bitTime cfg.bitDuration b0)) ++ closingRecords cfg k) := by
  simp [processFrame, readField, controlRecords_eq h h0 hf hr, bufEnd_eq (by omega) hk, bind, Except.bind, pure, Except.pure]

/-- The records of any other completed frame: only the last byte is read. -/
theorem processFrame_other {cfg : ProtocolVariant} {ft : FrameType} {buf : List TimestampedByte} {k : TimestampedByte}
    (hft : ft ≠ .control) (h : 1 ≤ buf.length) (hk : buf[buf.length - 1]? = some k) :
    processFrame cfg (some ft) buf = .ok (closingRecords cfg k) := by
  simp [processFrame, readField, hft, bufEnd_eq h hk, bind, Except.bind, pure, Except.pure]

/-- A frame with no type recorded raises NONE_READ (10_state.md R33). -/
theorem processFrame_noType (cfg : ProtocolVariant) (buf : List TimestampedByte) :
    processFrame cfg none buf = .error (noneRead .frameType) := rfl

/-- A CONTROL frame of fewer than three bytes raises NONE_READ (10_state.md R33). -/
theorem processFrame_short (cfg : ProtocolVariant) {buf : List TimestampedByte} (h : buf.length < 3) :
    processFrame cfg (some .control) buf = .error (noneRead .buf) := by
  simp [processFrame, readField, controlRecords, bufEnd_absent h, bind, Except.bind]

/-- The bytes R100 and R101 name are there in a frame of at least three. -/
theorem trailerBytes_exist {buf : List TimestampedByte} (h : 3 ≤ buf.length) :
    ∃ b0 f r k, buf[0]? = some b0 ∧ buf[buf.length - 3]? = some f ∧ buf[buf.length - 2]? = some r ∧
      buf[buf.length - 1]? = some k :=
  ⟨buf[0], buf[buf.length - 3], buf[buf.length - 2], buf[buf.length - 1], by simp, by simp, by simp, by simp⟩

@[simp] theorem channelRecords_length (buf : List TimestampedByte) (t0 bd : Time) (c : Nat) :
    (channelRecords buf t0 bd c).length = c := by
  simp [channelRecords]

@[simp] theorem closingRecords_length (cfg : ProtocolVariant) (k : TimestampedByte) :
    (closingRecords cfg k).length = 2 := rfl

theorem processFrame_cases {cfg : ProtocolVariant} {ft : Option FrameType} {buf : List TimestampedByte}
    {out : List Annotation} (h : processFrame cfg ft buf = .ok out) :
    ∃ t, ft = some t ∧ ∃ body k, out = body ++ closingRecords cfg k ∧ buf[buf.length - 1]? = some k ∧ 1 ≤ buf.length ∧
      (t = .control → controlRecords cfg buf = .ok body) ∧ (t ≠ .control → body = []) := by
  cases ft with
  | none => cases h
  | some t =>
    refine ⟨t, rfl, ?_⟩
    have key : ∀ {body : List Annotation}, ((bufEnd buf 1).bind fun k => Except.ok (body ++ closingRecords cfg k)) = .ok out →
        ∃ k, out = body ++ closingRecords cfg k ∧ buf[buf.length - 1]? = some k ∧ 1 ≤ buf.length := by
      intro body hb
      unfold bufEnd at hb
      split at hb
      · next hl =>
        have hk : buf[buf.length - 1]? = some buf[buf.length - 1] := by simp
        rw [bufAt_eq hk] at hb
        cases hb
        exact ⟨_, rfl, hk, hl⟩
      · cases hb
    by_cases ht : t = .control
    · subst ht
      simp only [processFrame, readField, bind, Except.bind, if_true, pure, Except.pure] at h
      cases hc : controlRecords cfg buf with
      | error e => simp [hc] at h
      | ok body =>
        rw [hc] at h
        obtain ⟨k, h1, h2, h3⟩ := key h
        exact ⟨body, k, h1, h2, h3, fun _ => rfl, fun hne => absurd rfl hne⟩
    · simp only [processFrame, readField, bind, Except.bind, ht, if_false, pure, Except.pure] at h
      obtain ⟨k, h1, h2, h3⟩ := key h
      exact ⟨[], k, h1, h2, h3, fun he => absurd he ht, fun _ => rfl⟩

end Sys2Proof.Machine
end

