-- ==== Sys2Proof/Laws/Step.lean ====
section
/-! SUPPORT. Every FEED operation is the step procedure over an operation of its own, and what each of these operations can do
to the session; the spec's `Step` on one element likewise. -/

namespace Sys2Proof.Machine

/-- The element a FEED instruction consumes (none for RESET, which the lemmas leave out: any element stands for it). -/
def feedElement : Instr → TimestampedByte
  | .feedSentinel x => x
  | .feedUplinkStart x => x
  | .feedIdle x => x
  | .feedLenOk x => x
  | .feedLenBad x => x
  | .feedTypeCtrl x => x
  | .feedTypeDl x => x
  | .feedTypeUnk x => x
  | .feedData x => x
  | .feedDataLast x => x
  | .feedUplType x => x
  | .feedUplData x => x
  | .feedIllegal _ x => x
  | .reset _ => ⟨0, 0, 0⟩

/-- The operation a FEED instruction runs in the step procedure (nothing for RESET, which the lemmas leave out). -/
def feedOp : Instr → State → OpResult
  | .feedSentinel x => opSentinel x
  | .feedUplinkStart _ => opUplinkStart
  | .feedIdle _ => opIdle
  | .feedLenOk x => opLenOk x
  | .feedLenBad x => opLenBad x
  | .feedTypeCtrl x => opType .control .typeControl .startControl x
  | .feedTypeDl x => opType .downlinkData .typeDownlink .startDownlink x
  | .feedTypeUnk x => opType .unknown .typeUnknown .startUnknown x
  | .feedData x => opData x
  | .feedDataLast x => opDataLast x
  | .feedUplType _ => opUplType
  | .feedUplData _ => opUplData
  | .feedIllegal st _ => opIllegal st
  | .reset _ => opIdle

theorem exec_feed {i : Instr} (h : ∀ cfg, i ≠ .reset cfg) (s : State) :
    exec i s = runElement (feedElement i) (feedOp i) s := by
  cases i with
  | reset cfg => exact absurd rfl (h cfg)
  | _ => rfl

/-- An operation that leaves alone what no FEED operation writes (10_state.md R23, R30). -/
def KeepsOutside (op : State → OpResult) : Prop :=
  ∀ s t out, op s = .ok (t, out) → t.cfg = s.cfg ∧ t.taken = s.taken ∧ t.host = s.host ∧ t.outQueue = s.outQueue ∧
    t.fault = s.fault ∧ t.lastEnd = s.lastEnd ∧ t.refused.config = s.refused.config ∧
    (s.refused.uplink = true → t.refused.uplink = true)

/-! ### What each operation gives -/

/-- A type byte with a header not merged: the record over the byte itself. -/
theorem opType_own {s : State} (ft : FrameType) (own merged : Tag) (x : TimestampedByte) (he : s.expectedLength ≠ none)
    (hm : s.cfg.headerMerge = false) : opType ft own merged x s =
      .ok ({ s with frameType := some ft, state := .readData }, [annotation own 0 0 x.start x.stop]) := by
  obtain ⟨e, he⟩ := Option.ne_none_iff_exists'.1 he
  simp [opType, typeRecord, he, hm, readField, bind, Except.bind, pure, Except.pure]

/-- A type byte with a merged header: the record from the sentinel's start. -/
theorem opType_merged {s : State} {t0 : Time} (ft : FrameType) (own merged : Tag) (x : TimestampedByte)
    (he : s.expectedLength ≠ none) (hm : s.cfg.headerMerge = true) (ht : s.headerStartTime = some t0) :
    opType ft own merged x s =
      .ok ({ s with frameType := some ft, state := .readData }, [annotation merged 0 0 t0 x.stop]) := by
  obtain ⟨e, he⟩ := Option.ne_none_iff_exists'.1 he
  simp [opType, typeRecord, he, hm, ht, readField, bind, Except.bind, pure, Except.pure]

/-- The field a type byte reads first (10_state.md R30, R33; log 22). -/
theorem opType_noExpected {s : State} (ft : FrameType) (own merged : Tag) (x : TimestampedByte)
    (he : s.expectedLength = none) : opType ft own merged x s = .error (noneRead .expectedLength) := by
  simp [opType, he, readField, bind, Except.bind]

/-- The field a type byte with a merged header reads next (10_state.md R33). -/
theorem opType_noHeaderStart {s : State} (ft : FrameType) (own merged : Tag) (x : TimestampedByte)
    (he : s.expectedLength ≠ none) (hm : s.cfg.headerMerge = true) (ht : s.headerStartTime = none) :
    opType ft own merged x s = .error (noneRead .headerStartTime) := by
  obtain ⟨e, he⟩ := Option.ne_none_iff_exists'.1 he
  simp [opType, typeRecord, he, hm, ht, readField, bind, Except.bind]

theorem opType_eq_ok {ft : FrameType} {own merged : Tag} {x : TimestampedByte} {s t : State} {out : List Annotation}
    (h : opType ft own merged x s = .ok (t, out)) :
    s.expectedLength ≠ none ∧ t = { s with frameType := some ft, state := .readData } ∧
      ((s.cfg.headerMerge = false ∧ out = [annotation own 0 0 x.start x.stop]) ∨
        (s.cfg.headerMerge = true ∧ ∃ t0, s.headerStartTime = some t0 ∧ out = [annotation merged 0 0 t0 x.stop])) := by
  by_cases he : s.expectedLength = none
  · rw [opType_noExpected _ _ _ _ he] at h; cases h
  · refine ⟨he, ?_⟩
    cases hm : s.cfg.headerMerge
    · rw [opType_own _ _ _ _ he hm] at h; cases h
      exact ⟨rfl, .inl ⟨rfl, rfl⟩⟩
    · cases ht : s.headerStartTime
      · rw [opType_noHeaderStart _ _ _ _ he hm ht] at h; cases h
      · rw [opType_merged _ _ _ _ he hm ht] at h; cases h
        exact ⟨by rw [← ht], .inr ⟨rfl, _, rfl, rfl⟩⟩

theorem opData_eq_ok {x : TimestampedByte} {s t : State} {out : List Annotation} (h : opData x s = .ok (t, out)) :
    s.buf.length < 256 ∧ t = { s with buf := s.buf ++ [x] } ∧ out = [] := by
  unfold opData at h
  cases ha : append s.buf x with
  | error e => simp [ha, bind, Except.bind] at h
  | ok b =>
    obtain ⟨hl, rfl⟩ := append_eq_ok ha
    simp only [ha, bind, Except.bind, pure, Except.pure] at h
    cases h
    exact ⟨hl, rfl, rfl⟩

theorem opDataLast_eq_ok {x : TimestampedByte} {s t : State} {out : List Annotation}
    (h : opDataLast x s = .ok (t, out)) :
    s.buf.length < 256 ∧ t = s.frameReset ∧ processFrame s.cfg s.frameType (s.buf ++ [x]) = .ok out := by
  unfold opDataLast at h
  cases ha : append s.buf x with
  | error e => simp [ha, bind, Except.bind] at h
  | ok b =>
    obtain ⟨hl, rfl⟩ := append_eq_ok ha
    cases hp : processFrame s.cfg s.frameType (s.buf ++ [x]) with
    | error e => simp [ha, hp, bind, Except.bind] at h
    | ok out' =>
      simp only [ha, hp, bind, Except.bind, pure, Except.pure] at h
      cases h
      exact ⟨hl, rfl, rfl⟩

theorem opDataLast_of {x : TimestampedByte} {s : State} {out : List Annotation} (hl : s.buf.length < 256)
    (hp : processFrame s.cfg s.frameType (s.buf ++ [x]) = .ok out) : opDataLast x s = .ok (s.frameReset, out) := by
  simp [opDataLast, append_ok x hl, hp, bind, Except.bind, pure, Except.pure]

/-! ### The spec's Step on one element -/

theorem decode_fetchWord (s : State) (x : TimestampedByte) :
    decode s.decodeCtx (s.fetchWord x) = decodeElement s.decodeCtx s.state x :=
  decode_inputWord _ _ _

theorem feedOne_of_decode {s : State} {x : TimestampedByte} {i : Instr}
    (h : decodeElement s.decodeCtx s.state x = .ok i) : feedOne x s = exec i s := by
  simp [feedOne, decode_fetchWord, h]

/-- Step is the step procedure over the operation Decode selects, or over the read that found its field absent. -/
theorem feedOne_cases (s : State) (x : TimestampedByte) :
    ∃ op, feedOne x s = runElement x op s ∧
      ((s.state = .waitForFirstByte ∧ x.value = 0x7E ∧ op = opSentinel x) ∨
       (s.state = .waitForFirstByte ∧ x.value = 0x08 ∧ op = opUplinkStart) ∨
       (s.state = .waitForFirstByte ∧ x.value ≠ 0x7E ∧ x.value ≠ 0x08 ∧ op = opIdle) ∨
       (s.state = .waitForLen ∧ s.cfg.minValidPayloadLen.toNat ≤ x.value.toNat + 1 ∧ op = opLenOk x) ∨
       (s.state = .waitForLen ∧ x.value.toNat + 1 < s.cfg.minValidPayloadLen.toNat ∧ op = opLenBad x) ∨
       (s.state = .waitForType ∧ x.value = 0x00 ∧ op = opType .control .typeControl .startControl x) ∨
       (s.state = .waitForType ∧ x.value = 0x01 ∧ op = opType .downlinkData .typeDownlink .startDownlink x) ∨
       (s.state = .waitForType ∧ x.value ≠ 0x00 ∧ x.value ≠ 0x01 ∧
          op = opType .unknown .typeUnknown .startUnknown x) ∨
       (s.state = .readData ∧ s.expectedLength = none ∧ op = fun _ => .error (noneRead .expectedLength)) ∨
       (s.state = .readData ∧ (∃ e, s.expectedLength = some e ∧ s.bufLen + 1 < e.toNat) ∧ op = opData x) ∨
       (s.state = .readData ∧ (∃ e, s.expectedLength = some e ∧ s.bufLen + 1 = e.toNat) ∧ op = opDataLast x) ∨
       (s.state = .readData ∧ (∃ e, s.expectedLength = some e ∧ e.toNat < s.bufLen + 1) ∧ op = opIllegal .readData) ∨
       (s.state = .waitForUplinkType ∧ op = opUplType) ∨
       (s.state = .waitForUplinkData ∧ op = opUplData) ∨
       ((s.state = .reserved6 ∨ s.state = .reserved7) ∧ op = opIllegal s.state)) := by
  have run : ∀ {i : Instr} {op : State → OpResult}, decodeElement s.decodeCtx s.state x = .ok i →
      exec i s = runElement x op s → feedOne x s = runElement x op s :=
    fun h1 h2 => (feedOne_of_decode h1).trans h2
  cases hst : s.state with
  | waitForFirstByte =>
    by_cases h1 : x.value = 0x7E
    · exact ⟨opSentinel x, run (i := .feedSentinel x) (by simp only [hst, decodeElement, decodeFirstByte, if_pos h1]) rfl,
        by simp [h1]⟩
    · by_cases h2 : x.value = 0x08
      · exact ⟨opUplinkStart, run (i := .feedUplinkStart x)
          (by simp only [hst, decodeElement, decodeFirstByte, if_neg h1, if_pos h2]) rfl, .inr (.inl ⟨rfl, h2, rfl⟩)⟩
      · exact ⟨opIdle, run (i := .feedIdle x)
          (by simp only [hst, decodeElement, decodeFirstByte, if_neg h1, if_neg h2]) rfl,
          .inr (.inr (.inl ⟨rfl, h1, h2, rfl⟩))⟩
  | waitForLen =>
    by_cases h1 : x.value.toNat + 1 < s.cfg.minValidPayloadLen.toNat
    · refine ⟨opLenBad x, run (i := .feedLenBad x) ?_ rfl, by simp [h1]⟩
      simp [hst, decodeElement, decodeLen, State.decodeCtx, expectedLengthOf_toNat, h1]
    · refine ⟨opLenOk x, run (i := .feedLenOk x) ?_ rfl, .inr (.inr (.inr (.inl ⟨rfl, by omega, rfl⟩)))⟩
      simp [hst, decodeElement, decodeLen, State.decodeCtx, expectedLengthOf_toNat]
      omega
  | waitForType =>
    by_cases h1 : x.value = 0x00
    · exact ⟨_, run (i := .feedTypeCtrl x) (by simp only [hst, decodeElement, decodeType, if_pos h1]) rfl, by simp [h1]⟩
    · by_cases h2 : x.value = 0x01
      · exact ⟨_, run (i := .feedTypeDl x)
          (by simp only [hst, decodeElement, decodeType, if_neg h1, if_pos h2]) rfl, by simp [h2]⟩
      · exact ⟨_, run (i := .feedTypeUnk x)
          (by simp only [hst, decodeElement, decodeType, if_neg h1, if_neg h2]) rfl,
          .inr (.inr (.inr (.inr (.inr (.inr (.inr (.inl ⟨rfl, h1, h2, rfl⟩)))))))⟩
  | readData =>
    cases he : s.expectedLength with
    | none =>
      refine ⟨fun _ => .error (noneRead .expectedLength), ?_, by simp⟩
      unfold feedOne
      rw [decode_fetchWord]
      simp [hst, decodeElement, decodeData, State.decodeCtx, he]
    | some e =>
      by_cases h1 : s.bufLen + 1 < e.toNat
      · refine ⟨opData x, run (i := .feedData x) ?_ rfl, by simp [h1]⟩
        simp [hst, decodeElement, decodeData, State.decodeCtx, he, h1]
      · by_cases h2 : s.bufLen + 1 = e.toNat
        · refine ⟨opDataLast x, run (i := .feedDataLast x) ?_ rfl, by simp [h2]⟩
          simp [hst, decodeElement, decodeData, State.decodeCtx, he, h2]
        · refine ⟨opIllegal .readData, run (i := .feedIllegal .readData x) ?_ rfl, by simp; omega⟩
          simp [hst, decodeElement, decodeData, State.decodeCtx, he, h1, h2]
  | waitForUplinkType =>
    exact ⟨opUplType, run (i := .feedUplType x) (by simp [hst, decodeElement]) rfl, by simp⟩
  | waitForUplinkData =>
    exact ⟨opUplData, run (i := .feedUplData x) (by simp [hst, decodeElement]) rfl, by simp⟩
  | reserved6 =>
    exact ⟨opIllegal .reserved6, run (i := .feedIllegal .reserved6 x) (by simp [hst, decodeElement]) rfl, by simp⟩
  | reserved7 =>
    exact ⟨opIllegal .reserved7, run (i := .feedIllegal .reserved7 x) (by simp [hst, decodeElement]) rfl, by simp⟩

/-! ### What no FEED operation writes -/

theorem keepsOutside_opType (ft : FrameType) (own merged : Tag) (x : TimestampedByte) :
    KeepsOutside (opType ft own merged x) := by
  intro s t out h
  obtain ⟨-, rfl, -⟩ := opType_eq_ok h
  simp

theorem keepsOutside_opData (x : TimestampedByte) : KeepsOutside (opData x) := by
  intro s t out h
  obtain ⟨-, rfl, -⟩ := opData_eq_ok h
  simp

theorem keepsOutside_opDataLast (x : TimestampedByte) : KeepsOutside (opDataLast x) := by
  intro s t out h
  obtain ⟨-, rfl, -⟩ := opDataLast_eq_ok h
  simp

/-- Every FEED operation keeps what none writes. -/
theorem keepsOutside_feedOp (i : Instr) : KeepsOutside (feedOp i) := by
  cases i with
  | feedTypeCtrl x => exact keepsOutside_opType _ _ _ x
  | feedTypeDl x => exact keepsOutside_opType _ _ _ x
  | feedTypeUnk x => exact keepsOutside_opType _ _ _ x
  | feedData x => exact keepsOutside_opData x
  | feedDataLast x => exact keepsOutside_opDataLast x
  | feedIllegal st x => intro s t out h; cases h
  | _ => intro s t out h; cases h; simp

/-- The spec's `Step` on one element is the step procedure over an operation that keeps what no FEED operation writes. -/
theorem feedOne_keeps (s : State) (x : TimestampedByte) : ∃ op, feedOne x s = runElement x op s ∧ KeepsOutside op := by
  unfold feedOne
  cases hd : decode s.decodeCtx (s.fetchWord x) with
  | error f => exact ⟨_, rfl, fun s t out h => by cases h⟩
  | ok i =>
    have hi : (∀ cfg, i ≠ .reset cfg) ∧ feedElement i = x := by
      rw [decode_fetchWord] at hd
      revert hd
      cases s.state <;> simp only [decodeElement, decodeFirstByte, decodeLen, decodeType, decodeData] <;> intro hd <;>
        (repeat' split at hd) <;> cases hd <;> exact ⟨fun _ => by simp, rfl⟩
    refine ⟨feedOp i, ?_, keepsOutside_feedOp i⟩
    show exec i s = _
    rw [exec_feed hi.1, hi.2]

/-- What a FEED operation that keeps them leaves of the fields none writes (10_state.md R23, R30). -/
theorem runElement_keeps {s t : State} {x : TimestampedByte} {op : State → OpResult} (hk : KeepsOutside op)
    (h : runElement x op s = .next t) :
    t.cfg = s.cfg ∧ t.taken = s.taken ∧ t.host = s.host ∧ t.refused.config = s.refused.config ∧
      (s.refused.uplink = true → t.refused.uplink = true) ∧ ∃ new, t.outQueue = s.outQueue ++ new := by
  rcases runElement_next h with ⟨-, rfl⟩ | ⟨-, k, rfl⟩ | ⟨-, u, out, ho, rfl⟩
  · simp
  · simp
  · obtain ⟨a, b, c, d, -, -, g, i⟩ := hk _ _ _ ho
    simpa [a, b, c, d, g] using i

/-! ### One step of the machine -/

/-- A move behind held elements: the list is the elements held, the move, and the rest; it was made because nothing is held,
or because `in_ready` is 0 and it feeds nothing. -/
theorem nextMove_eq_some {ready : Bool} {l rest : List HostMove} {m : HostMove} (h : nextMove ready l = some (m, rest)) :
    ∃ (held : List TimestampedByte) (more : List HostMove), l = held.map .feed ++ m :: more ∧
      rest = held.map .feed ++ more ∧ (held = [] ∨ ready = false) ∧ ∀ x, m = .feed x → held = [] ∧ ready = true := by
  induction l generalizing rest with
  | nil => cases h
  | cons a l ih =>
    cases a with
    | feed x =>
      cases ready with
      | true => cases h; exact ⟨[], l, rfl, rfl, .inl rfl, fun _ _ => ⟨rfl, rfl⟩⟩
      | false =>
        simp only [nextMove, Bool.false_eq_true, if_false, Option.map_eq_some_iff] at h
        obtain ⟨⟨n, r⟩, hn, hp⟩ := h
        cases hp
        obtain ⟨held, more, rfl, rfl, -, h4⟩ := ih hn
        exact ⟨x :: held, more, rfl, rfl, .inr rfl, fun y hy => absurd (h4 y hy).2 (by simp)⟩
    | take => cases h; exact ⟨[], l, rfl, rfl, .inl rfl, by simp⟩
    | reset v => cases h; exact ⟨[], l, rfl, rfl, .inl rfl, by simp⟩
    | construct cfg => cases h; exact ⟨[], l, rfl, rfl, .inl rfl, by simp⟩

/-- Elements held do not hold up the move behind them. -/
theorem nextMove_held {ready : Bool} (held : List TimestampedByte) {l rest : List HostMove} {m : HostMove}
    (hr : held = [] ∨ ready = false) (h : nextMove ready l = some (m, rest)) :
    nextMove ready (held.map .feed ++ l) = some (m, held.map .feed ++ rest) := by
  induction held with
  | nil => exact h
  | cons x held ih =>
    obtain rfl : ready = false := by simpa using hr
    have ih := ih (.inr rfl)
    simp [nextMove, ih]

/-- With `in_ready` 0 and nothing but elements to feed there is no move. -/
theorem nextMove_feeds (held : List TimestampedByte) : nextMove false (held.map .feed) = none := by
  induction held with
  | nil => rfl
  | cons x held ih => simp [nextMove, ih]

@[simp] theorem inReady_eq_false (s : State) : s.inReady = false ↔ s.outQueue ≠ [] := by
  simp [State.inReady]

@[simp] theorem inReady_eq_true (s : State) : s.inReady = true ↔ s.outQueue = [] := by
  simp [State.inReady]

/-- Everything `step` can be: the block waits, an element is consumed, or one of the other ports' moves is made, ahead of the
elements that are held. -/
theorem step_cases (s : State) :
    step s = .next s ∨
    (∃ x rest, s.host = .feed x :: rest ∧ s.outQueue = [] ∧ step s = feedOne x { s with host := rest }) ∨
    (∃ (held : List TimestampedByte) (m : HostMove) (rest : List HostMove),
      s.host = held.map .feed ++ m :: rest ∧ (held = [] ∨ s.outQueue ≠ []) ∧
      let t : State := { s with host := held.map .feed ++ rest }
      ((m = .take ∧ step s = .next t.takeRecord) ∨ (∃ v, m = .reset v ∧ step s = .next (t.blockReset (portRecord v))) ∨
        ∃ cfg, m = .construct cfg ∧ step s = .next (t.blockReset cfg))) := by
  cases h : nextMove s.inReady s.host with
  | none => exact .inl (by simp [step, nextTurn, h])
  | some p =>
    obtain ⟨m, r⟩ := p
    obtain ⟨held, more, h1, rfl, h3, h4⟩ := nextMove_eq_some h
    simp only [inReady_eq_false, inReady_eq_true] at h3 h4
    have hs : step s = match (m, held.map HostMove.feed ++ more) with
        | (.feed x, rest) => feedOne x { s with host := rest }
        | (.take, rest) => .next ({ s with host := rest } : State).takeRecord
        | (.reset v, rest) => .next (({ s with host := rest } : State).blockReset (portRecord v))
        | (.construct cfg, rest) => .next (({ s with host := rest } : State).blockReset cfg) := by
      unfold step nextTurn
      rw [h]
      cases m <;> rfl
    cases m with
    | feed x =>
      obtain ⟨rfl, hq⟩ := h4 x rfl
      exact .inr (.inl ⟨x, more, h1, hq, hs⟩)
    | take => exact .inr (.inr ⟨held, _, more, h1, h3, .inl ⟨rfl, hs⟩⟩)
    | reset v => exact .inr (.inr ⟨held, _, more, h1, h3, .inr (.inl ⟨v, rfl, hs⟩)⟩)
    | construct cfg => exact .inr (.inr ⟨held, _, more, h1, h3, .inr (.inr ⟨cfg, rfl, hs⟩)⟩)

end Sys2Proof.Machine
end

