-- ==== Sys2Proof/Laws/Invariant.lean ====
section
/-! SUPPORT. How to show `Inv` (Safety.lean), and what an operation can rely on where it holds. -/

namespace Sys2Proof.Machine

/-- `Inv` reads seven things of a state. -/
theorem inv_congr {s t : State} (h : Inv s) (h1 : t.state = s.state) (h2 : t.expectedLength = s.expectedLength)
    (h3 : t.frameType = s.frameType) (h4 : t.buf = s.buf) (h5 : t.headerStartTime = s.headerStartTime) (h6 : t.cfg = s.cfg)
    (h7 : t.refused.config = s.refused.config) : Inv t := by
  obtain ⟨⟨a, b, c, d, e⟩, ⟨f, g, i⟩⟩ := h
  simp only [State.bufLen] at a e
  exact ⟨⟨by simpa [State.bufLen, h1, h4] using a, by simpa [h1, h2] using b, by simpa [h1, h3] using c,
    by simpa [h1, h5] using d, by simpa [State.bufLen, h1, h2, h4] using e⟩,
    ⟨by simpa [h1] using f, by simpa [h6, h7] using g, by simpa [h2, h6] using i⟩⟩

/-- A session with nothing in it, waiting for a first byte. -/
theorem inv_of_emptySession {t : State} (h1 : t.state = .waitForFirstByte) (h2 : t.expectedLength = none)
    (h3 : t.frameType = none) (h4 : t.buf = []) (h5 : t.headerStartTime = none)
    (h6 : t.refused.config = false → admitted t.cfg = true) : Inv t :=
  ⟨⟨by simp [State.bufLen, h4], by simp [h1, h2], by simp [h1, h3], by simp [h1, h5, InFrame], by simp [h1]⟩,
    ⟨by simp [h1], h6, by simp [h2]⟩⟩

/-- Outside READ_DATA the buffer is empty. -/
theorem inv_buf_empty {s : State} (h : Inv s) (hs : s.state ≠ .readData) : s.buf = [] := by
  by_contra hb
  exact hs (h.1.bufOnlyInReadData (List.length_pos_of_ne_nil hb))

/-- Where the configuration was not refused its minimum is at least 9. -/
theorem inv_minLen {s : State} (h : Inv s) (hr : s.refused.config = false) : 9 ≤ s.cfg.minValidPayloadLen.toNat := by
  obtain ⟨v, hv⟩ := (admitted_iff _).1 (h.2.configAdmitted hr)
  rw [hv]
  cases v <;> exact minLen_ge _ _

/-- The byte that completes a frame has its buffer entry, and frame processing reads nothing absent. -/
theorem inv_lastByte_processes {s : State} (h : Inv s) (hr : s.refused.config = false) (x : TimestampedByte)
    (h1 : s.state = .readData) {e : BitVec 9} (he : s.expectedLength = some e) (hl : s.bufLen + 1 = e.toNat) :
    s.buf.length < 256 ∧ ∃ out ft, s.frameType = some ft ∧ processFrame s.cfg s.frameType (s.buf ++ [x]) = .ok out := by
  have h2 := h.2.expectedRange e he
  have h3 := inv_minLen h hr
  have h4 : s.buf.length + 1 = e.toNat := hl
  obtain ⟨ft, hft⟩ := Option.isSome_iff_exists.1 (h.1.frameTypePresent.2 h1)
  refine ⟨by omega, ?_⟩
  by_cases hc : ft = .control
  · subst hc
    obtain ⟨b0, f, r, k, a1, a2, a3, a4⟩ := trailerBytes_exist (buf := s.buf ++ [x]) (by simp; omega)
    exact ⟨_, _, hft, by rw [hft]; exact processFrame_control (by simp; omega) a1 a2 a3 a4⟩
  · exact ⟨_, _, hft, by rw [hft]; exact processFrame_other (k := x) hc (by simp) (by simp)⟩

/-- The type operations read `expectedLength` and `headerStartTime`, which are present where they run. -/
theorem inv_opType_ok {s : State} (h : Inv s) (hst : s.state = .waitForType) (ft : FrameType) (own merged : Tag)
    (x : TimestampedByte) : ∃ u out, opType ft own merged x s = .ok (u, out) := by
  obtain ⟨t0, ht0⟩ := Option.isSome_iff_exists.1 (h.1.headerStartPresent.2 (.inr (.inl hst)))
  have he := Option.isSome_iff_ne_none.1 (h.1.expectedPresent.2 (.inl hst))
  cases hm : s.cfg.headerMerge
  · exact ⟨_, _, opType_own ft own merged x he hm⟩
  · exact ⟨_, _, opType_merged ft own merged x he hm ht0⟩

end Sys2Proof.Machine
end

