-- ==== Sys2Proof/Laws/PerInstr.lean ====
section
/-! SUPPORT. Per instruction: the word of a well-formed operation has the bits its row of opcode_table.json fixes. -/

namespace Sys2Proof.Laws.RowMatch

/-- The word that stands for `i` meets `match` and `mask` of the row of `i` (30_encoding.md R43, opcode_table.json). -/
def Statement (i : Instr) : Prop :=
  i.wf = true → ∀ w t0 t1, encode i = .word w t0 t1 → ∃ m k, i.row = some (m, k) ∧ w &&& k = m

/-- A row that fixes the state code alone. -/
theorem of_state {i : Instr} {st : FsmState} {x : TimestampedByte} {m k : BitVec 11}
    (he : encode i = .word (inputWord st x.value) x.start x.stop) (hr : i.row = some (m, k)) (hk : k &&& 0x0FF = 0)
    (hm : inputWord st 0 &&& k = m) : Statement i := by
  intro _ w t0 t1 h
  rw [he] at h
  cases h
  exact ⟨m, k, hr, (inputWord_and_mask _ _ _ hk).trans hm⟩

/-- A row that fixes the byte too. -/
theorem of_byte {i : Instr} {st : FsmState} {x : TimestampedByte} {b : Byte} {m k : BitVec 11}
    (he : encode i = .word (inputWord st x.value) x.start x.stop) (hr : i.row = some (m, k)) (hb : i.wf = true → x.value = b)
    (hm : inputWord st b &&& k = m) : Statement i := by
  intro hw w t0 t1 h
  rw [he, hb hw] at h
  cases h
  exact ⟨m, k, hr, hm⟩

theorem feedSentinel (x : TimestampedByte) : Statement (.feedSentinel x) :=
  of_byte rfl rfl (b := 0x7E) (by simp [Instr.wf]) (by decide)

theorem feedUplinkStart (x : TimestampedByte) : Statement (.feedUplinkStart x) :=
  of_byte rfl rfl (b := 0x08) (by simp [Instr.wf]) (by decide)

theorem feedIdle (x : TimestampedByte) : Statement (.feedIdle x) := of_state rfl rfl (by decide) (by decide)

theorem feedLenOk (x : TimestampedByte) : Statement (.feedLenOk x) := of_state rfl rfl (by decide) (by decide)

theorem feedLenBad (x : TimestampedByte) : Statement (.feedLenBad x) := of_state rfl rfl (by decide) (by decide)

theorem feedTypeCtrl (x : TimestampedByte) : Statement (.feedTypeCtrl x) :=
  of_byte rfl rfl (b := 0x00) (by simp [Instr.wf]) (by decide)

theorem feedTypeDl (x : TimestampedByte) : Statement (.feedTypeDl x) :=
  of_byte rfl rfl (b := 0x01) (by simp [Instr.wf]) (by decide)

theorem feedTypeUnk (x : TimestampedByte) : Statement (.feedTypeUnk x) := of_state rfl rfl (by decide) (by decide)

theorem feedData (x : TimestampedByte) : Statement (.feedData x) := of_state rfl rfl (by decide) (by decide)

theorem feedDataLast (x : TimestampedByte) : Statement (.feedDataLast x) := of_state rfl rfl (by decide) (by decide)

theorem feedUplType (x : TimestampedByte) : Statement (.feedUplType x) := of_state rfl rfl (by decide) (by decide)

theorem feedUplData (x : TimestampedByte) : Statement (.feedUplData x) := of_state rfl rfl (by decide) (by decide)

theorem feedIllegal (st : FsmState) (x : TimestampedByte) : Statement (.feedIllegal st x) := by
  intro hw
  have hst : st = .reserved6 ∨ st = .reserved7 ∨ st = .readData := by simpa [Instr.wf, or_assoc] using hw
  rcases hst with rfl | rfl | rfl <;> exact of_state rfl rfl (by decide) (by decide) hw

/-- RESET has no word (70_reset_and_hazards.md R125). -/
theorem reset (cfg : ProtocolVariant) : Statement (.reset cfg) := by
  intro _ w t0 t1 h
  simp only [encode] at h
  split at h
  · cases h
  · split at h <;> cases h

end Sys2Proof.Laws.RowMatch
end

