-- ==== Sys2Proof/Laws/Ports.lean ====
section
/-! SUPPORT. What the time words of the ports stand for, and which of them the block hands on unrounded. -/

namespace Sys2Proof.Machine

/-- No word is rounded on its way through the exact times. -/
@[simp] theorem timeWord_wordTime (w : BitVec Config.timeW) : timeWord (wordTime w) = some w := by
  have h : wordTime w * 2 ^ Config.timeFrac = (w.toNat : Time) :=
    div_mul_cancel₀ _ (pow_ne_zero _ (by norm_num))
  have hf : Rat.floor (w.toNat : Time) = (w.toNat : Int) := by exact_mod_cast Rat.floor_intCast (w.toNat : Int)
  simp [timeWord, h, hf]

/-- A time of a record that is an input time leaves the block as the word it came in as. -/
theorem Annotation.portTime_input {a : Annotation} {edge : TimeEdge} {w : BitVec Config.timeW}
    (h : a.tag.derivedTime edge = false) (hw : a.exactTime edge = wordTime w) : a.portTime edge = w := by
  simp [portTime, h, hw]

/-- A derived time leaves it as the word the block's rounding gives. -/
theorem Annotation.portTime_derived {a : Annotation} {edge : TimeEdge} (h : a.tag.derivedTime edge = true) :
    a.portTime edge = Config.roundTime a.tag.code a.n a.start a.stop edge := by
  simp [portTime, h]

end Sys2Proof.Machine
end

