-- ==== Sys2Proof/Laws/Unpack.lean ====
section
/-! SUPPORT. The payload bitstream byte by byte and bit by bit (20_memory.md R37), the channel values
as a list, what one more byte changes, and packed values. -/

namespace Sys2Proof.Machine

theorem mapIdx_sum_scale {α : Type} (n : Nat) (l : List α) (f g : Nat → α → Nat) (h : ∀ k b, f k b = n * g k b) :
    (l.mapIdx f).sum = n * (l.mapIdx g).sum := by
  induction l generalizing f g with
  | nil => simp
  | cons b l ih =>
    simp only [List.mapIdx_cons, List.sum_cons, Nat.mul_add, h]
    rw [ih (fun i => f (i + 1)) (fun i => g (i + 1)) (fun k b => h _ b)]

@[simp] theorem stream_nil : stream [] = 0 := rfl

theorem stream_cons (b : TimestampedByte) (buf : List TimestampedByte) :
    stream (b :: buf) = b.value.toNat + 256 * stream buf := by
  unfold stream
  rw [List.mapIdx_cons, List.sum_cons]
  congr 1
  apply mapIdx_sum_scale
  intro k c
  rw [Nat.shiftLeft_eq, Nat.shiftLeft_eq, show 8 * (k + 1) = 8 * k + 8 by omega, Nat.pow_add]
  ring

/-- Stream bit p is bit `p mod 8` of byte `p div 8`; past the buffer the stream is 0. -/
theorem stream_testBit (buf : List TimestampedByte) (p : Nat) :
    (stream buf).testBit p = (buf[p / 8]?).any fun b => b.value.getLsbD (p % 8) := by
  induction buf generalizing p with
  | nil => simp
  | cons b buf ih =>
    rw [stream_cons, Nat.add_comm, show (256 : Nat) = 2 ^ 8 from rfl,
      Nat.testBit_two_pow_mul_add _ (by exact b.value.isLt)]
    split
    · next h =>
      rw [Nat.div_eq_of_lt h, Nat.mod_eq_of_lt h]
      simp [BitVec.getLsbD]
    · next h =>
      rw [ih, show p / 8 = (p - 8) / 8 + 1 by omega, show p % 8 = (p - 8) % 8 by omega]
      simp

theorem stream_lt (buf : List TimestampedByte) : stream buf < 2 ^ (8 * buf.length) := by
  induction buf with
  | nil => simp
  | cons b buf ih =>
    have hb := b.value.isLt
    rw [stream_cons, List.length_cons, Nat.mul_add, Nat.pow_add]
    omega

theorem channelValue_toNat (buf : List TimestampedByte) (i : Nat) :
    (channelValue buf i).toNat = stream buf / 2 ^ (11 * (i - 1)) % 2048 := by
  simp [channelValue, Nat.shiftRight_eq_div_pow]

@[simp] theorem channelValues_length (buf : List TimestampedByte) (c : Nat) : (channelValues buf c).length = c := by
  simp [channelValues]

theorem channelValues_succ (buf : List TimestampedByte) (c : Nat) :
    channelValues buf (c + 1) = channelValues buf c ++ [channelValue buf (c + 1)] := by
  simp [channelValues, List.range_succ]

/-! ### Bits, and one more byte -/

theorem channelValue_getLsbD (buf : List TimestampedByte) (i : Nat) {j : Nat} (hj : j < 11) :
    (channelValue buf i).getLsbD j = (stream buf).testBit (11 * (i - 1) + j) := by
  simp only [channelValue, BitVec.getLsbD_ofNat, hj, Nat.testBit_shiftRight]
  simp

theorem stream_append (p : List TimestampedByte) (b : TimestampedByte) :
    stream (p ++ [b]) = stream p + b.value.toNat * 2 ^ (8 * p.length) := by
  induction p with
  | nil => simp [stream_cons]
  | cons a p ih =>
    rw [List.cons_append, stream_cons, stream_cons, ih, List.length_cons, Nat.mul_add, Nat.mul_add, Nat.pow_add]
    ring

/-- A channel that lies in the first `n` bytes does not see the others. -/
theorem channelValue_take {buf : List TimestampedByte} {n i : Nat} (h : 11 * i ≤ 8 * n) (hi : 1 ≤ i) :
    channelValue (buf.take n) i = channelValue buf i := by
  apply BitVec.eq_of_getLsbD_eq
  intro j hj
  rw [channelValue_getLsbD _ _ hj, channelValue_getLsbD _ _ hj, stream_testBit, stream_testBit, List.getElem?_take,
    if_pos (by omega)]

theorem channelValue_append {p : List TimestampedByte} (b : TimestampedByte) {i : Nat} (h : 11 * i ≤ 8 * p.length)
    (hi : 1 ≤ i) : channelValue (p ++ [b]) i = channelValue p i := by
  rw [← channelValue_take (buf := p ++ [b]) h hi, List.take_left']
  rfl

theorem channelValues_append {p : List TimestampedByte} (b : TimestampedByte) {c : Nat} (h : 11 * c ≤ 8 * p.length) :
    channelValues (p ++ [b]) c = channelValues p c := by
  apply List.map_congr_left
  intro j hj
  have := List.mem_range.1 hj
  exact channelValue_append b (by omega) (by omega)

/-! ### The working registers of 41_unpacker.md R84 -/

theorem shiftIn_bits {u : Unpacker} (h : u.bits.toNat ≤ 10) (b : Byte) : (shiftIn u b).bits.toNat = u.bits.toNat + 8 := by
  simp [shiftIn, BitVec.toNat_add]
  omega

/-- The byte goes in above the bits held: the OR adds it, and 18 bits hold the sum. -/
theorem shiftIn_value {u : Unpacker} (h : u.bits.toNat ≤ 10) (hv : u.value.toNat < 2 ^ u.bits.toNat) (b : Byte) :
    (shiftIn u b).value.toNat = u.value.toNat + b.toNat * 2 ^ u.bits.toNat := by
  have hb := b.isLt
  have hlt : b.toNat * 2 ^ u.bits.toNat < 2 ^ 18 := by
    calc b.toNat * 2 ^ u.bits.toNat < 2 ^ 8 * 2 ^ u.bits.toNat := Nat.mul_lt_mul_of_pos_right hb (by positivity)
      _ ≤ 2 ^ 8 * 2 ^ 10 := Nat.mul_le_mul_left _ (Nat.pow_le_pow_right (by omega) h)
      _ = 2 ^ 18 := by norm_num
  have hs : (b.setWidth 18 <<< u.bits.toNat).toNat = b.toNat * 2 ^ u.bits.toNat := by
    rw [BitVec.toNat_shiftLeft, BitVec.toNat_setWidth, Nat.mod_eq_of_lt (show b.toNat < 2 ^ 18 by omega),
      Nat.shiftLeft_eq, Nat.mod_eq_of_lt hlt]
  simp only [shiftIn, BitVec.toNat_or, hs]
  rw [Nat.or_comm, Nat.mul_comm b.toNat, ← Nat.two_pow_add_eq_or_of_lt hv]
  omega

/-! ### Packed values -/

theorem packed_lt (v : List (BitVec 11)) : packed v < 2 ^ (11 * v.length) := by
  induction v with
  | nil => simp [packed]
  | cons a v ih =>
    have := a.isLt
    rw [packed, List.length_cons, Nat.mul_add, Nat.pow_add]
    omega

theorem packed_div_mod (v : List (BitVec 11)) (i : Nat) (h : i < v.length) :
    packed v / 2 ^ (11 * i) % 2048 = v[i].toNat := by
  induction v generalizing i with
  | nil => simp at h
  | cons a v ih =>
    have := a.isLt
    cases i with
    | zero => simp [packed]; omega
    | succ i =>
      rw [packed, show 11 * (i + 1) = 11 + 11 * i by ring, Nat.pow_add, ← Nat.div_div_eq_div_mul,
        show (2 : Nat) ^ 11 = 2048 by norm_num, show (a.toNat + 2048 * packed v) / 2048 = packed v by omega]
      simpa using ih i (by simpa using h)

end Sys2Proof.Machine
end

