-- ==== Sys2Proof/Tests/Slice0.lean ====
section
/-! SUPPORT. The author's own tests: ill-formed terms, words of every operation, the vectors of 95_test_vectors.md, and for each
statement with hypotheses a witness that meets them. -/

namespace Sys2Proof.Tests

open Sys2Proof.Machine

/-! ### Helpers -/

/-- The unit u of 95_test_vectors.md: one fixed-rate bit time. -/
def u : Time := 1 / 115200

def fixed9 : ProtocolVariant := variantRecord .a9_13 .fixed
def fixed13 : ProtocolVariant := variantRecord .a13_9 .fixed
def measured9 : ProtocolVariant := variantRecord .a13_9 .measured
def measured13 : ProtocolVariant := variantRecord .a9_13 .measured

/-- A session with these fields, nothing in flight, no fault and nothing refused. -/
def session (cfg : ProtocolVariant) (st : FsmState) (e : Option (BitVec 9)) (ft : Option FrameType) (h : Option Time)
    (buf : List TimestampedByte) (last : Option Time) : State :=
  { State.reset with
    cfg := cfg, state := st, expectedLength := e, frameType := ft, headerStartTime := h, buf := buf, lastEnd := last }

/-- `n` bytes of one value, back to back from time `t`, each `d` long. -/
def run (v : Byte) (t d : Time) (n : Nat) : List TimestampedByte :=
  (List.range n).map fun (k : Nat) => ⟨v, t + k * d, t + (k + 1) * d⟩

@[simp] theorem run_length (v : Byte) (t d : Time) (n : Nat) : (run v t d n).length = n := by
  simp [run]

/-- Bytes of given values, back to back from time `t`, each `d` long. -/
def bytes (t d : Time) (vs : List Byte) : List TimestampedByte :=
  vs.mapIdx fun (k : Nat) v => ⟨v, t + k * d, t + (k + 1) * d⟩

/-- The records a step leaves in the queue, as the source's annotations, with times in a unit. -/
def shown (unit : Time) : Result → List (String × Time × Time)
  | .next t => t.outQueue.map fun r => (r.record.labelled.label, r.record.start / unit, r.record.stop / unit)
  | _ => []

/-- A property of the next state. -/
def leaves (p : State → Bool) : Result → Bool
  | .next t => p t
  | _ => false

/-! ### WellFormed refuses an ill-formed term of each check -/

theorem test_wf_sentinel : (Instr.feedSentinel ⟨0x7F, 0, 1⟩).wf = false := by decide
theorem test_wf_uplinkStart : (Instr.feedUplinkStart ⟨0x09, 0, 1⟩).wf = false := by decide
theorem test_wf_idle :
    (Instr.feedIdle ⟨0x7E, 0, 1⟩).wf = false ∧ (Instr.feedIdle ⟨0x08, 0, 1⟩).wf = false := by decide
theorem test_wf_typeCtrl : (Instr.feedTypeCtrl ⟨0x01, 0, 1⟩).wf = false := by decide
theorem test_wf_typeDl : (Instr.feedTypeDl ⟨0x00, 0, 1⟩).wf = false := by decide
theorem test_wf_typeUnk :
    (Instr.feedTypeUnk ⟨0x00, 0, 1⟩).wf = false ∧ (Instr.feedTypeUnk ⟨0x01, 0, 1⟩).wf = false := by decide
theorem test_wf_illegal : (Instr.feedIllegal .waitForLen ⟨0x00, 0, 1⟩).wf = false := by decide

/-! ### Words written out bit by bit: state code, then byte (30_encoding.md R43, R44, opcode_table.json) -/

theorem test_word_sentinel :
    decode ⟨9, 0, none⟩ (.word 0b000_01111110#11 0 1) = .ok (.feedSentinel ⟨0x7E, 0, 1⟩) := by decide
theorem test_word_uplinkStart :
    decode ⟨9, 0, none⟩ (.word 0b000_00001000#11 0 1) = .ok (.feedUplinkStart ⟨0x08, 0, 1⟩) := by decide
theorem test_word_idle :
    decode ⟨9, 0, none⟩ (.word 0b000_01111101#11 0 1) = .ok (.feedIdle ⟨0x7D, 0, 1⟩) := by decide
/-- V2.4, V2.5, V2.7: the same word under both minima. -/
theorem test_word_lenOk :
    decode ⟨9, 0, none⟩ (.word 0b001_00001011#11 1 2) = .ok (.feedLenOk ⟨0x0B, 1, 2⟩) ∧
    decode ⟨13, 0, none⟩ (.word 0b001_00001100#11 1 2) = .ok (.feedLenOk ⟨0x0C, 1, 2⟩) ∧
    decode ⟨13, 0, none⟩ (.word 0b001_11111111#11 1 2) = .ok (.feedLenOk ⟨0xFF, 1, 2⟩) := by decide
/-- V2.2, V2.4. -/
theorem test_word_lenBad :
    decode ⟨9, 0, none⟩ (.word 0b001_00000111#11 1 2) = .ok (.feedLenBad ⟨0x07, 1, 2⟩) ∧
    decode ⟨13, 0, none⟩ (.word 0b001_00001011#11 1 2) = .ok (.feedLenBad ⟨0x0B, 1, 2⟩) := by decide
theorem test_word_typeCtrl :
    decode ⟨9, 0, some 27⟩ (.word 0b010_00000000#11 2 3) = .ok (.feedTypeCtrl ⟨0x00, 2, 3⟩) := by decide
theorem test_word_typeDl :
    decode ⟨9, 0, some 27⟩ (.word 0b010_00000001#11 2 3) = .ok (.feedTypeDl ⟨0x01, 2, 3⟩) := by decide
theorem test_word_typeUnk :
    decode ⟨9, 0, some 27⟩ (.word 0b010_11111111#11 2 3) = .ok (.feedTypeUnk ⟨0xFF, 2, 3⟩) := by decide
/-- V4.1, V4.2. -/
theorem test_word_data :
    decode ⟨9, 0, some 27⟩ (.word 0b011_11100000#11 3 4) = .ok (.feedData ⟨0xE0, 3, 4⟩) ∧
    decode ⟨9, 25, some 27⟩ (.word 0b011_01100100#11 28 29) = .ok (.feedData ⟨0x64, 28, 29⟩) := by decide
/-- V4.3, V4.5. -/
theorem test_word_dataLast :
    decode ⟨9, 26, some 27⟩ (.word 0b011_10101011#11 29 30) = .ok (.feedDataLast ⟨0xAB, 29, 30⟩) ∧
    decode ⟨9, 8, some 9⟩ (.word 0b011_00001000#11 14 15) = .ok (.feedDataLast ⟨0x08, 14, 15⟩) := by decide
theorem test_word_uplType :
    decode ⟨9, 0, none⟩ (.word 0b100_10000001#11 1 2) = .ok (.feedUplType ⟨0x81, 1, 2⟩) := by decide
theorem test_word_uplData :
    decode ⟨9, 0, none⟩ (.word 0b101_01111110#11 2 3) = .ok (.feedUplData ⟨0x7E, 2, 3⟩) := by decide
theorem test_word_illegal :
    decode ⟨9, 0, none⟩ (.word 0b110_00000000#11 0 1) = .ok (.feedIllegal .reserved6 ⟨0x00, 0, 1⟩) ∧
    decode ⟨9, 0, none⟩ (.word 0b111_11111111#11 0 1) = .ok (.feedIllegal .reserved7 ⟨0xFF, 0, 1⟩) ∧
    decode ⟨9, 27, some 27⟩ (.word 0b011_00000000#11 0 1) = .ok (.feedIllegal .readData ⟨0x00, 0, 1⟩) := by decide
/-- A number wider than 11 bits, and READ_DATA with no expected length: rejected by name. -/
theorem test_word_rejected :
    decodeNat ⟨9, 0, none⟩ 0x800 0 1 = .error .notElevenBits ∧
    decodeNat ⟨9, 0, none⟩ 0x300 0 1 = .error (.noneRead .expectedLength) := by decide
/-- cfg_variant 0 is FIXED and 1 MEASURED (30_encoding.md R60). -/
theorem test_port_reset :
    (portRecord 0).headerMerge = false ∧ (portRecord 1).headerMerge = true ∧
    decode ⟨9, 0, none⟩ (.rst 1) = .ok (.reset (portRecord 1)) := ⟨rfl, rfl, rfl⟩

/-! ### The vectors of 95_test_vectors.md -/

/-- V1.1 and V1.2. -/
theorem test_sentinel :
    shown 1 (feedOne ⟨0x7E, 0, 1⟩ (session fixed9 .waitForFirstByte none none none [] none)) = [("Head", 0, 1)] ∧
    shown 1 (feedOne ⟨0x7E, 0, 10⟩ (session measured13 .waitForFirstByte none none none [] none)) = [] := by
  decide +kernel
/-- V1.3. -/
theorem test_uplinkStart :
    leaves (fun t => t.stState == 4 && t.headerStartTime == none && t.outQueue == [])
      (feedOne ⟨0x08, 0, 1⟩ (session fixed9 .waitForFirstByte none none none [] none)) = true := by decide +kernel
/-- V1.6 and V10.4: nothing but `last_end`. -/
theorem test_idle :
    leaves (· == session fixed9 .waitForFirstByte none none none [] (some 10))
      (exec (.feedIdle ⟨0x7D, 9, 10⟩) (session fixed9 .waitForFirstByte none none none [] (some 4))) = true := by
  decide +kernel
/-- V2.3, and V2.7: 0xFF gives 256 with no wrap. -/
theorem test_lenOk :
    shown 1 (feedOne ⟨0x08, 1, 2⟩ (session fixed9 .waitForLen none none (some 0) [] (some 1))) = [("Len:8", 1, 2)] ∧
    leaves (fun t => t.expectedLength == some 256 && t.stState == 2 && t.outQueue == [])
      (feedOne ⟨0xFF, 1, 2⟩ (session measured13 .waitForLen none none (some 0) [] (some 1))) = true := by
  decide +kernel
/-- V2.2, and V2.3 under the minimum 13. -/
theorem test_lenBad :
    leaves (· == session fixed9 .waitForFirstByte none none none [] (some 2))
      (feedOne ⟨0x07, 1, 2⟩ (session fixed9 .waitForLen none none (some 0) [] (some 1))) = true ∧
    leaves (· == session fixed13 .waitForFirstByte none none none [] (some 2))
      (feedOne ⟨0x08, 1, 2⟩ (session fixed13 .waitForLen none none (some 0) [] (some 1))) = true := by decide +kernel
/-- V3.1. -/
theorem test_typeCtrl :
    shown 1 (feedOne ⟨0x00, 2, 3⟩ (session fixed9 .waitForType (some 27) none (some 0) [] (some 2))) =
      [("Type:control", 2, 3)] ∧
    shown 1 (feedOne ⟨0x00, 2, 3⟩ (session measured13 .waitForType (some 27) none (some 0) [] (some 2))) =
      [("Control start", 0, 3)] := by decide +kernel
/-- V3.2. -/
theorem test_typeDl :
    shown 1 (feedOne ⟨0x01, 2, 3⟩ (session fixed9 .waitForType (some 27) none (some 0) [] (some 2))) =
      [("Type:downlink", 2, 3)] ∧
    shown 1 (feedOne ⟨0x01, 2, 3⟩ (session measured13 .waitForType (some 27) none (some 0) [] (some 2))) =
      [("Downlink start", 0, 3)] := by decide +kernel
/-- V3.4: a sentinel's value as a type. -/
theorem test_typeUnk :
    shown 1 (feedOne ⟨0x7E, 2, 3⟩ (session fixed9 .waitForType (some 27) none (some 0) [] (some 2))) =
      [("Type:unknown", 2, 3)] ∧
    shown 1 (feedOne ⟨0x7E, 2, 3⟩ (session measured13 .waitForType (some 27) none (some 0) [] (some 2))) =
      [("Unknown frame", 0, 3)] := by decide +kernel
/-- V4.1 and V4.4. -/
theorem test_data :
    leaves (fun t => t.buf == [⟨0xE0, 3, 4⟩] && t.stState == 3 && t.outQueue == [])
      (feedOne ⟨0xE0, 3, 4⟩ (session fixed9 .readData (some 27) (some .control) (some 0) [] (some 3))) = true ∧
    leaves (fun t => t.bufLen == 4 && t.stState == 3)
      (feedOne ⟨0x7E, 9, 10⟩ (session fixed9 .readData (some 9) (some .control) (some 0) (run 0 6 1 3) (some 9))) = true := by
  decide +kernel
/-- V9.1 and V9.2. -/
theorem test_uplink :
    leaves (fun t => t.stState == 5 && t.refused == ⟨true, false⟩ && t.outQueue == [])
      (feedOne ⟨0x81, 1, 2⟩ (session fixed9 .waitForUplinkType none none none [] (some 1))) = true ∧
    leaves (fun t => t.stState == 0 && t.refused == ⟨true, false⟩ && t.outQueue == [])
      (feedOne ⟨0x7E, 2, 3⟩ (session fixed9 .waitForUplinkData none none none [] (some 2))) = true := by decide +kernel
/-- V9.3 and V9.4. -/
theorem test_illegal :
    leaves (fun t => t.fault == some (.illegalState 6) && t.lastEnd == some 1)
      (feedOne ⟨0x00, 1, 2⟩ (session fixed9 .reserved6 none none none [] (some 1))) = true ∧
    leaves (fun t => t.fault == some (.illegalState 7) && t.lastEnd == some 1)
      (feedOne ⟨0xFF, 1, 2⟩ (session fixed9 .reserved7 none none none [] (some 1))) = true := by decide +kernel
/-- V10.1, V10.2 and V10.3. -/
theorem test_inputOrder :
    leaves (fun t => t.fault == some (.inputOrder ⟨0x7E, 5, 5⟩) && t.stState == 0 && t.outQueue == [])
      (feedOne ⟨0x7E, 5, 5⟩ (session fixed9 .waitForFirstByte none none none [] none)) = true ∧
    leaves (fun t => t.fault == some (.inputOrder ⟨0x7E, 3, 5⟩))
      (feedOne ⟨0x7E, 3, 5⟩ (session fixed9 .waitForFirstByte none none none [] (some 4))) = true ∧
    leaves (fun t => t.fault == none && t.stState == 1)
      (feedOne ⟨0x7E, 4, 5⟩ (session fixed9 .waitForFirstByte none none none [] (some 4))) = true := by decide +kernel
/-- V10.5. -/
theorem test_haltedByFault :
    leaves (· == { session fixed9 .waitForFirstByte none none none [] (some 4) with fault := some (.illegalState 6) })
      (feedOne ⟨0x7E, 9, 10⟩
        { session fixed9 .waitForFirstByte none none none [] (some 4) with fault := some (.illegalState 6) }) = true := by
  decide +kernel
/-- V11.1 and V11.2. -/
theorem test_reset :
    exec (.reset (portRecord 0)) (session measured9 .readData (some 27) (some .control) (some 0) (run 0 3 1 10) (some 13)) =
      .next State.reset := by
  have h : admitted (portRecord 0) = true := admitted_portRecord 0
  simp only [exec, execReset, State.blockReset, h]
  rfl
/-- A record that is not admitted: a merged header with the fine trailer (60_exceptions.md R124). -/
def refusedRecord : ProtocolVariant := ⟨9, .computed, true, .fine, 3⟩

theorem refusedRecord_not_admitted : admitted refusedRecord = false := by
  unfold admitted portRecord
  cases Config.minLenAssign <;> decide +kernel

/-- V11.3, whatever MIN_LEN_ASSIGN is. -/
theorem test_resetRefused :
    ∃ t, exec (.reset refusedRecord) State.reset = .next t ∧ t.refused = ⟨false, true⟩ ∧
      feedOne ⟨0x7E, 0, 1⟩ t = .next t := by
  refine ⟨_, rfl, by simp [refusedRecord_not_admitted], ?_⟩
  obtain ⟨op, ho, -⟩ := feedOne_keeps (State.reset.blockReset refusedRecord) ⟨0x7E, 0, 1⟩
  exact ho.trans (runElement_halted _ _ (by simp [State.halted, refusedRecord_not_admitted]))

/-- The 24 payload bytes and the flags and RSSI bytes of program P1. -/
def p1Buffer : List TimestampedByte := bytes (3 * u) u ([0xE0, 0xAB, 0x0A] ++ List.replicate 21 0x00 ++ [0x09, 0x64])

/-- Program P1, its last step: records 4 to 27 of its table, times in u. -/
theorem test_P1_lastStep :
    shown u (feedOne ⟨0xAB, 29 * u, 30 * u⟩
      (session fixed9 .readData (some 27) (some .control) (some 0) p1Buffer (some (29 * u)))) =
    [("ch1:992", 3, 14), ("ch2:341", 14, 25), ("ch3:0", 25, 36), ("ch4:0", 36, 47), ("ch5:0", 47, 58), ("ch6:0", 58, 69),
      ("ch7:0", 69, 80), ("ch8:0", 80, 91), ("ch9:0", 91, 102), ("ch10:0", 102, 113), ("ch11:0", 113, 124),
      ("ch12:0", 124, 135)] ++
    [("ch13:0", 135, 146), ("ch14:0", 146, 157), ("ch15:0", 157, 168), ("ch16:0", 168, 179), ("ch17:0", 179, 190),
      ("failsafe:true", 26, 53 / 2), ("lost frame:false", 53 / 2, 27), ("ch18:false", 27, 55 / 2), ("ch17:true", 55 / 2, 28),
      ("RSSI:100", 28, 29), ("CRC:171", 29, 30), ("End", 29, 30)] := by decide +kernel
/-- Program P2, its last step, times in τ = 1. -/
theorem test_P2_lastStep :
    shown 1 (feedOne ⟨0x5A, 150, 160⟩
      (session measured13 .readData (some 13) (some .control) (some 0)
        (bytes 30 10 ([0xFF, 0x07] ++ List.replicate 8 0x00 ++ [0x0F, 0x50])) (some 150))) =
    [("ch1:2047", 30, 41), ("ch2:0", 41, 52), ("ch3:0", 52, 63), ("ch4:0", 63, 74), ("ch5:0", 74, 85), ("ch6:0", 85, 96),
      ("ch7:0", 96, 107), ("ch8:120", 107, 118), ("ch9:592", 118, 129), ("Flags", 130, 140), ("RSSI", 140, 150),
      ("CRC", 150, 160), ("End", 150, 160)] := by decide +kernel
/-- Programs P3 and P5, their last steps. -/
theorem test_P3_P5_lastStep :
    shown 1 (feedOne ⟨0x11, 18, 19⟩
      (session fixed13 .readData (some 13) (some .unknown) (some 3) (run 0x20 6 1 12) (some 18))) =
      [("CRC:17", 18, 19), ("End", 18, 19)] ∧
    shown 1 (feedOne ⟨0x3C, 150, 160⟩
      (session measured9 .readData (some 13) (some .downlinkData) (some 0) (run 0x30 30 10 12) (some 150))) =
      [("CRC", 150, 160), ("End", 150, 160)] := by decide +kernel

/-- V5.1 to V5.11. -/
theorem test_channelCount :
    [22, 23, 21, 11, 10, 6, 9, 13, 24, 253, 256].map channelCount = [16, 16, 15, 8, 7, 4, 6, 9, 17, 184, 186] := by decide
/-- V6.1: the loop's registers after each of the first five bytes of P1. -/
theorem test_unpackLoop :
    let after := fun n => unpackLoop 17 unpackerStart (bytes 0 1 ([0xE0, 0xAB, 0x0A, 0x00, 0x00].take n))
    (after 1).value = 0xE0 ∧ (after 1).bits = 8 ∧ (after 2).value = 0x15 ∧ (after 2).bits = 5 ∧ (after 2).channels = [992] ∧
    (after 3).value = 0 ∧ (after 3).bits = 2 ∧ (after 3).channels = [992, 341] ∧ (after 4).bits = 10 ∧
    (after 5).bits = 7 ∧ (after 5).channels = [992, 341, 0] := by decide +kernel
/-- V6.2 and V6.3. -/
theorem test_channelValues :
    channelValues (run 0xFF 0 1 11) 8 = List.replicate 8 2047 ∧
    channelValues (bytes 0 1 [0x01, 0x10, 0xC0, 0x00, 0xFE, 0x0F, 0x40, 0x00, 0x14, 0xC0, 0x00]) 8 =
      [1, 2, 3, 2047, 1024, 0, 5, 6] := by decide +kernel
/-- V6.4: in variant MEASURED the channels reach the trailer bytes. -/
theorem test_channelOverlap :
    (channelValues (bytes 0 1 (List.replicate 22 0x00 ++ [0x0F, 0x64, 0xAB])) 18).drop 15 = [0, 1039, 1388] := by
  decide +kernel
/-- V7.3: an uneven first byte. -/
theorem test_measuredBitTime :
    bitTime .computed ⟨0, 30, 55⟩ = 5 / 2 ∧ channelStop 30 (5 / 2) 1 = 115 / 2 ∧ channelStart 30 (5 / 2) 2 = 115 / 2 ∧
      channelStop 30 (5 / 2) 2 = 85 := by decide +kernel
/-- V8.2 and V8.4. -/
theorem test_flags :
    [flagFailsafe 0x09, flagLostFrame 0x09, flagCh18 0x09, flagCh17 0x09] = [1, 0, 0, 1] ∧
    [flagFailsafe 0xF6, flagLostFrame 0xF6, flagCh18 0xF6, flagCh17 0xF6] = [0, 1, 1, 0] := by decide
/-- V8.6: decimal numerals. -/
theorem test_labels :
    label .rssiVal 0 0 = "RSSI:0" ∧ label .rssiVal 0 255 = "RSSI:255" ∧ label .crcVal 0 0 = "CRC:0" ∧
      label .channel 186 2047 = "ch186:2047" := by decide +kernel

/-! ### Witnesses: for each statement with hypotheses, a state and operands that meet them -/

/-- The byte from 1 to 2 is accepted where the last one ended at 1. -/
theorem accepts_next (cfg : ProtocolVariant) (st : FsmState) (e : Option (BitVec 9)) (ft : Option FrameType)
    (h : Option Time) (buf : List TimestampedByte) (v : Byte) : Accepts (session cfg st e ft h buf (some 1)) ⟨v, 1, 2⟩ :=
  ⟨rfl, rfl, by show (1 : Rat) < 2; norm_num, by simp [session]⟩

/-- An accepted FEED operation answers a next state where its operation succeeds. -/
theorem exec_answers {i : Instr} {s v : State} {out : List Annotation} (hi : ∀ cfg, i ≠ .reset cfg)
    (ha : Accepts s (feedElement i)) (ho : feedOp i s = .ok (v, out)) : ∃ t, exec i s = .next t :=
  ⟨_, (exec_feed hi s).trans (runElement_ok ha ho)⟩

/-- What `leaves` says. -/
theorem answers_of_leaves {p : State → Bool} {r : Result} (h : leaves p r = true) : ∃ t, r = .next t ∧ p t = true := by
  cases r with
  | next t => exact ⟨t, rfl, h⟩
  | fault f => cases h
  | refused f => cases h

/-- Bytes one after the other. -/
theorem streamInOrder_run (v : Byte) (t : Time) (n : Nat) : StreamInOrder (some t) (run v t 1 n) := by
  have key : ∀ (m : Nat) (e : Time), e ≤ t + m →
      StreamInOrder (some e) ((List.range' m n).map fun (k : Nat) => (⟨v, t + k * 1, t + (k + 1) * 1⟩ : TimestampedByte)) := by
    induction n with
    | zero => intro m e _; trivial
    | succ n ih =>
      intro m e he
      rw [List.range'_succ, List.map_cons]
      refine ⟨by simp, by simpa using he, ih (m + 1) _ ?_⟩
      push_cast
      linarith
  have := key 0 t (by simp)
  simpa [run, List.range_eq_range'] using this

/-- A state of READ_DATA that meets `Inv`: the payload of a frame of E = 27 bytes being read. -/
def reading (ft : FrameType) (buf : List TimestampedByte) (last : Option Time) : State :=
  session (portRecord 0) .readData (some 27) (some ft) (some 0) buf last

theorem inv_reading (ft : FrameType) (buf : List TimestampedByte) (last : Option Time) (h : buf.length < 27) :
    Inv (reading ft buf last) := by
  refine ⟨⟨fun _ => rfl, by simp [reading, session], by simp [reading, session], by simp [reading, session, InFrame], ?_⟩,
    ⟨by simp [reading, session], fun _ => admitted_portRecord 0, ?_⟩⟩
  · rintro - e he
    cases he
    exact h
  · intro e he
    cases he
    have h13 : (minLen Config.minLenAssign .fixed).toNat ≤ 13 := by
      rcases minLen_cases Config.minLenAssign .fixed with h | h <;> rw [h] <;> decide
    exact ⟨le_trans h13 (by decide), by decide⟩

theorem inv_reset : Inv State.reset :=
  inv_of_emptySession rfl rfl rfl rfl rfl fun _ => admitted_portRecord 0

/-- Both variants. -/
theorem test_witness_SentinelStartsFrame :
    (session fixed9 .waitForFirstByte none none none [] (some 1)).state = .waitForFirstByte ∧
    Accepts (session fixed9 .waitForFirstByte none none none [] (some 1)) ⟨0x7E, 1, 2⟩ ∧ fixed9.headerMerge = false ∧
    Accepts (session measured13 .waitForFirstByte none none none [] (some 1)) ⟨0x7E, 1, 2⟩ ∧
      measured13.headerMerge = true :=
  ⟨rfl, accepts_next .., rfl, accepts_next .., rfl⟩
theorem test_witness_UplinkStartEntersBranch :
    (session fixed9 .waitForFirstByte none none none [] (some 1)).state = .waitForFirstByte ∧
    Accepts (session fixed9 .waitForFirstByte none none none [] (some 1)) ⟨0x08, 1, 2⟩ := ⟨rfl, accepts_next ..⟩
/-- Bytes beside the two special ones. -/
theorem test_witness_IdleByteIsIgnored :
    (∀ v ∈ [(0x7D : Byte), 0x7F, 0x07, 0x09, 0x00, 0xFF], v ≠ 0x7E ∧ v ≠ 0x08) ∧
    Accepts (session fixed9 .waitForFirstByte none none none [] (some 1)) ⟨0x7D, 1, 2⟩ := ⟨by decide, accepts_next ..⟩
/-- E equal to the minimum, under both minima, and the largest length. -/
theorem test_witness_ValidLengthIsAccepted :
    fixed9.minValidPayloadLen.toNat = (0x08 : Byte).toNat + 1 ∧ fixed13.minValidPayloadLen.toNat = (0x0C : Byte).toNat + 1 ∧
    fixed13.minValidPayloadLen.toNat ≤ (0xFF : Byte).toNat + 1 ∧
    Accepts (session fixed9 .waitForLen none none (some 0) [] (some 1)) ⟨0x08, 1, 2⟩ :=
  ⟨by decide, by decide, by decide, accepts_next ..⟩
/-- One below the minimum, under both minima, and L = 0. -/
theorem test_witness_ShortLengthAbandonsFrame :
    (0x07 : Byte).toNat + 1 < fixed9.minValidPayloadLen.toNat ∧ (0x0B : Byte).toNat + 1 < fixed13.minValidPayloadLen.toNat ∧
    (0x00 : Byte).toNat + 1 < fixed9.minValidPayloadLen.toNat ∧
    Accepts (session fixed9 .waitForLen none none (some 0) [] (some 1)) ⟨0x07, 1, 2⟩ :=
  ⟨by decide, by decide, by decide, accepts_next ..⟩
/-- Both variants; the merged form has its header start time. The same states serve the three type statements. -/
theorem test_witness_ControlTypeByte :
    (session fixed9 .waitForType (some 27) none (some 0) [] (some 1)).state = .waitForType ∧
    Accepts (session fixed9 .waitForType (some 27) none (some 0) [] (some 1)) ⟨0x00, 1, 2⟩ ∧ fixed9.headerMerge = false ∧
    Accepts (session measured13 .waitForType (some 27) none (some 0) [] (some 1)) ⟨0x00, 1, 2⟩ ∧
      measured13.headerMerge = true ∧
      (session measured13 .waitForType (some 27) none (some 0) [] (some 1)).headerStartTime = some 0 ∧
    ∀ cfg, (session cfg .waitForType (some 27) none (some 0) [] (some 1)).expectedLength ≠ none :=
  ⟨rfl, accepts_next .., rfl, accepts_next .., rfl, rfl, fun _ => Option.some_ne_none _⟩
theorem test_witness_DownlinkTypeByte :
    Accepts (session fixed9 .waitForType (some 27) none (some 0) [] (some 1)) ⟨0x01, 1, 2⟩ ∧ fixed9.headerMerge = false ∧
    Accepts (session measured13 .waitForType (some 27) none (some 0) [] (some 1)) ⟨0x01, 1, 2⟩ ∧
      measured13.headerMerge = true := ⟨accepts_next .., rfl, accepts_next .., rfl⟩
theorem test_witness_UnknownTypeByte :
    (∀ v ∈ [(0x02 : Byte), 0x7E, 0x08, 0xFF], v ≠ 0x00 ∧ v ≠ 0x01) ∧
    Accepts (session fixed9 .waitForType (some 27) none (some 0) [] (some 1)) ⟨0x02, 1, 2⟩ ∧ fixed9.headerMerge = false ∧
    Accepts (session measured13 .waitForType (some 27) none (some 0) [] (some 1)) ⟨0xFF, 1, 2⟩ ∧
      measured13.headerMerge = true := ⟨by decide, accepts_next .., rfl, accepts_next .., rfl⟩
/-- The last byte before the completing one, and the last free buffer entry. -/
theorem test_witness_PayloadByteIsAppended :
    (session fixed9 .readData (some 27) (some .control) (some 0) (run 0 0 1 25) (some 1)).bufLen + 1 < (27 : BitVec 9).toNat ∧
    Accepts (session fixed9 .readData (some 27) (some .control) (some 0) (run 0 0 1 25) (some 1)) ⟨0x64, 1, 2⟩ ∧
    (session fixed9 .readData (some 256) (some .control) (some 0) (run 0 0 1 255) (some 1)).bufLen < 256 :=
  ⟨by simp [State.bufLen, session], accepts_next .., by simp [State.bufLen, session]⟩
/-- The shortest frame, the shortest control buffer, a frame of one byte that is not CONTROL, and the last entry. -/
theorem test_witness_LastPayloadByteCompletesFrame :
    (session fixed9 .readData (some 9) (some .control) (some 0) (run 0 0 1 8) (some 1)).bufLen + 1 = (9 : BitVec 9).toNat ∧
    (session fixed9 .readData (some 3) (some .control) (some 0) (run 0 0 1 2) (some 1)).bufLen = 2 ∧
    (FrameType.unknown = .control → 2 ≤ (session fixed9 .readData (some 1) (some .unknown) (some 0) [] (some 1)).bufLen) ∧
    (session fixed9 .readData (some 256) (some .control) (some 0) (run 0 0 1 255) (some 1)).bufLen + 1 = (256 : BitVec 9).toNat ∧
    Accepts (session fixed9 .readData (some 9) (some .control) (some 0) (run 0 0 1 8) (some 1)) ⟨0x08, 1, 2⟩ :=
  ⟨by simp [State.bufLen, session], by simp [State.bufLen, session], fun h => (by cases h),
    by simp [State.bufLen, session], accepts_next ..⟩
theorem test_witness_UplinkTypeByte :
    (session fixed9 .waitForUplinkType none none none [] (some 1)).state = .waitForUplinkType ∧
    Accepts (session fixed9 .waitForUplinkType none none none [] (some 1)) ⟨0x81, 1, 2⟩ := ⟨rfl, accepts_next ..⟩
theorem test_witness_UplinkDataByte :
    (session fixed9 .waitForUplinkData none none none [] (some 1)).state = .waitForUplinkData ∧
    Accepts (session fixed9 .waitForUplinkData none none none [] (some 1)) ⟨0x7E, 1, 2⟩ := ⟨rfl, accepts_next ..⟩
/-- Both reserved codes, and a buffer that holds E bytes. -/
theorem test_witness_IllegalStateFaults :
    Accepts (session fixed9 .reserved6 none none none [] (some 1)) ⟨0x00, 1, 2⟩ ∧
    Accepts (session fixed9 .reserved7 none none none [] (some 1)) ⟨0xFF, 1, 2⟩ ∧
    (9 : BitVec 9).toNat < (session fixed9 .readData (some 9) (some .control) (some 0) (run 0 0 1 9) (some 1)).bufLen + 1 ∧
    Accepts (session fixed9 .readData (some 9) (some .control) (some 0) (run 0 0 1 9) (some 1)) ⟨0x00, 1, 2⟩ :=
  ⟨accepts_next .., accepts_next .., by simp [State.bufLen, session], accepts_next ..⟩
/-- A byte that takes no time, and one that starts before the last one's end. -/
theorem test_witness_InputOutOfOrderFaults :
    State.reset.fault = none ∧ State.reset.refused.config = false ∧ ¬ ((5 : Time) < 5) ∧
    ∃ e, (session fixed9 .waitForFirstByte none none none [] (some 4)).lastEnd = some e ∧ (3 : Time) < e :=
  ⟨rfl, rfl, by decide +kernel, 4, rfl, by decide +kernel⟩
theorem test_witness_HaltedBlockTakesNoStep :
    (State.reset.raiseFault (.illegalState 6)).fault ≠ none ∧ (State.reset.blockReset refusedRecord).refused.config = true :=
  ⟨by simp, by simp [refusedRecord_not_admitted]⟩
/-- One state for each of the four checks. -/
theorem test_witness_ChecksAreMadeInOrder :
    (State.reset.raiseFault (.illegalState 6)).fault ≠ none ∧
    (State.reset.fault = none ∧ State.reset.refused.config = false ∧ ¬ Accepts State.reset ⟨0x7E, 5, 5⟩) ∧
    Accepts (session fixed9 .reserved6 none none none [] (some 1)) ⟨0x00, 1, 2⟩ ∧
    (Accepts (session fixed9 .waitForFirstByte none none none [] (some 1)) ⟨0x7E, 1, 2⟩ ∧
      decode (session fixed9 .waitForFirstByte none none none [] (some 1)).decodeCtx
        ((session fixed9 .waitForFirstByte none none none [] (some 1)).fetchWord ⟨0x7E, 1, 2⟩) =
        .ok (.feedSentinel ⟨0x7E, 1, 2⟩)) :=
  ⟨by simp, ⟨rfl, rfl, fun h => absurd h.2.2.1 (by decide +kernel)⟩, accepts_next .., accepts_next .., rfl⟩
theorem test_witness_FaultIsPrecise :
    ∃ t, exec (.feedIllegal .reserved6 ⟨0x00, 1, 2⟩) (session fixed9 .reserved6 none none none [] (some 1)) = .next t ∧
      t.fault ≠ (session fixed9 .reserved6 none none none [] (some 1)).fault :=
  ⟨_, (exec_feed (by simp) _).trans (runElement_fault (accepts_next ..) rfl), by simp [session, State.reset, State.afterReset]⟩
/-- One state for each absent field. -/
theorem test_witness_AbsentFieldFaults :
    (session fixed9 .readData none none none [] (some 1)).expectedLength = none ∧
    (session measured13 .waitForType none none (some 0) [] (some 1)).expectedLength = none ∧
    ((session measured13 .waitForType (some 27) none none [] (some 1)).expectedLength ≠ none ∧
      measured13.headerMerge = true ∧ (session measured13 .waitForType (some 27) none none [] (some 1)).headerStartTime = none) ∧
    ((session fixed9 .readData (some 9) none none (run 0 0 1 8) (some 1)).bufLen < 256 ∧
      (session fixed9 .readData (some 9) none none (run 0 0 1 8) (some 1)).frameType = none) ∧
    (session fixed9 .readData (some 2) (some .control) none (run 0 0 1 1) (some 1)).bufLen < 2 ∧
    Accepts (session fixed9 .readData none none none [] (some 1)) ⟨0x00, 1, 2⟩ :=
  ⟨rfl, rfl, ⟨Option.some_ne_none _, rfl, rfl⟩, ⟨by simp [State.bufLen, session], rfl⟩, by simp [State.bufLen, session],
    accepts_next ..⟩
theorem test_witness_FullBufferStopsAppend :
    Accepts (session fixed9 .readData (some 300) (some .control) (some 0) (run 0 0 1 256) (some 1)) ⟨0x00, 1, 2⟩ ∧
    256 ≤ (session fixed9 .readData (some 300) (some .control) (some 0) (run 0 0 1 256) (some 1)).bufLen :=
  ⟨accepts_next .., by simp [State.bufLen, session]⟩
theorem test_witness_OnlyInputOrderFaults :
    Inv State.reset ∧ State.reset.fault = none ∧ Inv (reading .control (run 0 0 1 26) (some 26)) :=
  ⟨inv_reset, rfl, inv_reading _ _ _ (by simp)⟩
/-- The boundary between DATA and DATA_LAST, and a record no port selects. -/
theorem test_witness_DecodeOfEncodeIsTheInstruction :
    (Instr.feedData ⟨0x7E, 0, 1⟩).wf = true ∧ DecodeCtx.selects ⟨9, 25, some 27⟩ (.feedData ⟨0x7E, 0, 1⟩) = true ∧
    (Instr.feedDataLast ⟨0x7E, 0, 1⟩).wf = true ∧ DecodeCtx.selects ⟨9, 26, some 27⟩ (.feedDataLast ⟨0x7E, 0, 1⟩) = true ∧
    (Instr.feedIllegal .readData ⟨0, 0, 1⟩).wf = true ∧
      DecodeCtx.selects ⟨9, 27, some 27⟩ (.feedIllegal .readData ⟨0, 0, 1⟩) = true ∧
    (Instr.reset refusedRecord).wf = true ∧ DecodeCtx.selects ⟨9, 0, none⟩ (.reset refusedRecord) = true := by decide
theorem test_witness_EveryWordSelectsOneOperation :
    wordState 0x300 = .readData ∧ (⟨9, 0, some 27⟩ : DecodeCtx).expected.isSome = true ∧ wordState 0x7FF ≠ .readData := by
  decide
/-- L = 7 and L = 8 under the minimum 9, L = 11 and L = 12 under 13. -/
theorem test_witness_LengthThresholdIsExact :
    Accepts (session fixed9 .waitForLen none none (some 0) [] (some 1)) ⟨0x07, 1, 2⟩ ∧
    0 < fixed9.minValidPayloadLen.toNat ∧ (0x07 : Byte).toNat + 2 = fixed9.minValidPayloadLen.toNat ∧
    (0x08 : Byte).toNat + 1 = fixed9.minValidPayloadLen.toNat ∧ (0x0B : Byte).toNat + 2 = fixed13.minValidPayloadLen.toNat ∧
    (0x0C : Byte).toNat + 1 = fixed13.minValidPayloadLen.toNat :=
  ⟨accepts_next .., by decide, by decide, by decide, by decide, by decide⟩
theorem test_witness_StepRunsDecodedInstruction :
    ∃ s : State, s.host = [.feed ⟨0x7E, 0, 1⟩] ∧ s.outQueue = [] ∧
      decode s.decodeCtx (.word (inputWord s.state 0x7E) 0 1) = .ok (.feedSentinel ⟨0x7E, 0, 1⟩) :=
  ⟨{ State.reset with host := [.feed ⟨0x7E, 0, 1⟩] }, rfl, rfl, rfl⟩
/-- Nothing held, with both values of `cfg_variant` and a construction, and a reset behind an element that is held. -/
theorem test_witness_ResetMoveRunsReset :
    ({ State.reset with host := [.reset 0] } : State).host = ([] : List TimestampedByte).map .feed ++ .reset 0 :: [] ∧
    ({ State.reset with host := [.reset 1] } : State).host = ([] : List TimestampedByte).map .feed ++ .reset 1 :: [] ∧
    ({ State.reset with host := [.construct refusedRecord] } : State).host =
      ([] : List TimestampedByte).map .feed ++ .construct refusedRecord :: [] ∧
    (let s := { State.reset with host := [.feed ⟨0x7E, 1, 2⟩, .reset 1], outQueue := [⟨⟨.head, 0, 0, 0, 1⟩, true⟩] }
     s.host = [⟨0x7E, 1, 2⟩].map .feed ++ .reset 1 :: [] ∧ s.outQueue ≠ []) := ⟨rfl, rfl, rfl, rfl, by simp⟩
theorem test_witness_BlockWaitsWithStateKept :
    State.reset.host = [] ∧
    (let s := { State.reset with host := [.feed ⟨0x7E, 1, 2⟩, .feed ⟨0x08, 2, 3⟩], outQueue := [⟨⟨.head, 0, 0, 0, 1⟩, true⟩] }
     s.host = [⟨0x7E, 1, 2⟩, ⟨0x08, 2, 3⟩].map .feed ∧ s.outQueue ≠ []) := ⟨rfl, rfl, by simp⟩
/-- A record taken with an element held and with none, and no record to take. -/
theorem test_witness_TakeTransfersOldestRecord :
    (let s := { State.reset with host := [.feed ⟨0x7E, 1, 2⟩, .take], outQueue := [⟨⟨.head, 0, 0, 0, 1⟩, true⟩] }
     s.host = [⟨0x7E, 1, 2⟩].map .feed ++ .take :: [] ∧ s.outQueue = ⟨⟨.head, 0, 0, 0, 1⟩, true⟩ :: []) ∧
    (let s := { State.reset with host := [.take], outQueue := [⟨⟨.head, 0, 0, 0, 1⟩, true⟩] }
     s.host = ([] : List TimestampedByte).map .feed ++ .take :: [] ∧ s.outQueue = ⟨⟨.head, 0, 0, 0, 1⟩, true⟩ :: []) ∧
    (let s := { State.reset with host := [.take] }
     s.host = ([] : List TimestampedByte).map .feed ++ .take :: [] ∧ s.outQueue = []) :=
  ⟨⟨rfl, rfl⟩, ⟨rfl, rfl⟩, rfl, rfl⟩
/-- Taking the last record lets the element that was held be consumed next (30_encoding.md R58, 70_reset_and_hazards.md R130). -/
theorem test_takeWhileHeld :
    leaves (fun t => t.host == [.feed ⟨0x1A, 1, 2⟩] && t.taken == [⟨⟨.head, 0, 0, 0, 1⟩, true⟩] && t.inReady && t.stState == 1)
      (step { session fixed9 .waitForLen none none (some 0) [] (some 1) with
        host := [.feed ⟨0x1A, 1, 2⟩, .take], outQueue := [⟨⟨.head, 0, 0, 0, 1⟩, true⟩] }) = true := by decide +kernel
/-- A step that consumes an element, one that takes a record, and a reset ahead of a held element. -/
theorem test_witness_OutputOrderIsKept :
    (∃ t, step { State.reset with host := [.feed ⟨0x7E, 0, 1⟩] } = .next t) ∧
    (∃ t, step { State.reset with host := [.take], outQueue := [⟨⟨.head, 0, 0, 0, 1⟩, true⟩] } = .next t) ∧
    ∃ t, step { State.reset with host := [.feed ⟨0x7E, 0, 1⟩, .reset 1], outQueue := [⟨⟨.head, 0, 0, 0, 1⟩, true⟩] } = .next t :=
  ⟨exec_answers (i := .feedSentinel ⟨0x7E, 0, 1⟩) (s := State.reset) (by simp)
    ⟨rfl, rfl, by decide +kernel, by simp [State.reset, State.afterReset]⟩ rfl, ⟨_, rfl⟩, _, rfl⟩
/-- A record over an input byte leaves the port with the words the byte's times came in as (30_encoding.md R58, R59). -/
theorem test_portWords (w0 w1 : BitVec Config.timeW) :
    let x := portElement 0x7E w0 w1
    let s := { State.reset with outQueue := [⟨⟨.head, 0, 0, x.start, x.stop⟩, true⟩] }
    s.outStart = some w0 ∧ s.outEnd = some w1 := by
  simp only [State.outStart, State.outEnd, State.outPort, State.fifo, Config.outFifoDepth, List.take_succ_cons, List.head?_cons,
    Option.map_some, portElement]
  exact ⟨congrArg some (Annotation.portTime_input rfl rfl), congrArg some (Annotation.portTime_input rfl rfl)⟩
theorem test_witness_FeedOperationsFrame :
    ∃ t, exec (.feedSentinel ⟨0x7E, 1, 2⟩) (session fixed9 .waitForFirstByte none none none [] (some 1)) = .next t :=
  exec_answers (by simp) (accepts_next ..) rfl
/-- Each clause has an operation that answers a next state. -/
theorem test_witness_SessionFieldsFrame :
    ∀ i ∈ [Instr.feedSentinel ⟨0, 1, 2⟩, .feedUplinkStart ⟨0, 1, 2⟩, .feedUplType ⟨0, 1, 2⟩, .feedIdle ⟨0, 1, 2⟩,
      .feedLenOk ⟨0, 1, 2⟩, .feedLenBad ⟨0, 1, 2⟩, .feedUplData ⟨0, 1, 2⟩, .feedData ⟨0, 1, 2⟩],
      ∃ t, exec i (session fixed9 .readData (some 27) (some .control) (some 0) [] (some 1)) = .next t := by
  intro i hi
  simp only [List.mem_cons, List.not_mem_nil, or_false] at hi
  rcases hi with rfl | rfl | rfl | rfl | rfl | rfl | rfl | rfl <;>
    exact exec_answers (by simp) (accepts_next ..) rfl
theorem test_witness_SessionFieldsFrame_types :
    (∀ i ∈ [Instr.feedTypeCtrl ⟨0, 1, 2⟩, .feedTypeDl ⟨0, 1, 2⟩, .feedTypeUnk ⟨0, 1, 2⟩],
      ∃ t, exec i (session fixed9 .waitForType (some 27) none (some 0) [] (some 1)) = .next t) ∧
    ∃ t, exec (.feedIllegal .reserved6 ⟨0, 1, 2⟩) (session fixed9 .reserved6 none none none [] (some 1)) = .next t := by
  refine ⟨fun i hi => ?_, _, (exec_feed (by simp) _).trans (runElement_fault (accepts_next ..) rfl)⟩
  simp only [List.mem_cons, List.not_mem_nil, or_false] at hi
  rcases hi with rfl | rfl | rfl <;>
    exact exec_answers (by simp) (accepts_next ..) rfl
theorem test_witness_ConfigurationChangesAtResetOnly :
    ∃ t, step { State.reset with host := [.reset 1] } = .next t ∧ t.cfg ≠ ({ State.reset with host := [.reset 1] } : State).cfg := by
  refine ⟨_, rfl, fun h => ?_⟩
  have h : (portRecord 1).headerMerge = (portRecord 0).headerMerge := congrArg ProtocolVariant.headerMerge h
  cases h
theorem test_witness_PayloadBytesDoNotChangeFraming :
    ∃ t v : State, ∃ x y : TimestampedByte,
      let s := session fixed9 .readData (some 9) (some .control) (some 0) (run 0 0 1 8) (some 8)
      Accepts s x ∧ x.start = y.start ∧ x.stop = y.stop ∧ (run 0xFF 0 1 8).length = s.buf.length ∧
        exec (.feedDataLast x) s = .next t ∧ exec (.feedDataLast y) { s with buf := run 0xFF 0 1 8 } = .next v ∧
        t.fault = none := by
  obtain ⟨t, ht, hf⟩ := answers_of_leaves (p := fun t => t.fault == none)
    (r := exec (.feedDataLast ⟨0xAB, 8, 9⟩) (session fixed9 .readData (some 9) (some .control) (some 0) (run 0 0 1 8) (some 8)))
    (by decide +kernel)
  obtain ⟨v, hv, -⟩ := answers_of_leaves (p := fun t => t.fault == none)
    (r := exec (.feedDataLast ⟨0x00, 8, 9⟩)
      (session fixed9 .readData (some 9) (some .control) (some 0) (run 0xFF 0 1 8) (some 8))) (by decide +kernel)
  exact ⟨t, v, ⟨0xAB, 8, 9⟩, ⟨0x00, 8, 9⟩, ⟨rfl, rfl, by decide +kernel, by simp [session]⟩, rfl, rfl, by simp [session], ht, hv, by simpa using hf⟩
/-- The shortest buffer that has the trailer's three bytes, and the buffer of P1. -/
theorem test_witness_CompletedFrameRecords :
    (let buf : List TimestampedByte := [⟨1, 0, 1⟩, ⟨2, 1, 2⟩, ⟨3, 2, 3⟩]
     3 ≤ buf.length ∧ buf[0]? = some ⟨1, 0, 1⟩ ∧ buf[buf.length - 3]? = some ⟨1, 0, 1⟩ ∧
      buf[buf.length - 2]? = some ⟨2, 1, 2⟩ ∧ buf[buf.length - 1]? = some ⟨3, 2, 3⟩) ∧
    p1Buffer[p1Buffer.length - 2]? = some ⟨0x09, 27 * u, 28 * u⟩ := by decide +kernel
/-- The shortest and the longest buffer. -/
theorem test_witness_FixedControlFrameLabels :
    (let buf : List TimestampedByte := [⟨1, 0, 1⟩, ⟨2, 1, 2⟩, ⟨3, 2, 3⟩]
     3 ≤ buf.length ∧ buf.length ≤ 256 ∧ buf[buf.length - 3]? = some ⟨1, 0, 1⟩ ∧ buf[buf.length - 2]? = some ⟨2, 1, 2⟩ ∧
      buf[buf.length - 1]? = some ⟨3, 2, 3⟩) ∧ (run 0 0 1 256).length ≤ 256 := by
  refine ⟨by decide +kernel, by simp⟩
theorem test_witness_MeasuredControlFrameLabels :
    3 ≤ (run 0 0 1 3).length ∧ (run 0 0 1 256).length ≤ 256 := by simp
theorem test_witness_OtherFramesEmitCrcAndEnd :
    FrameType.unknown ≠ .control ∧ ([⟨3, 2, 3⟩] : List TimestampedByte).getLast? = some ⟨3, 2, 3⟩ ∧
    ([⟨1, 0, 1⟩, ⟨3, 2, 3⟩] : List TimestampedByte).getLast? = some ⟨3, 2, 3⟩ := ⟨by decide, rfl, rfl⟩
theorem test_witness_EndSpansLastByte :
    ∃ out, processFrame fixed9 (some .unknown) [⟨3, 2, 3⟩] = .ok out ∧
      ([⟨3, 2, 3⟩] : List TimestampedByte).getLast? = some ⟨3, 2, 3⟩ :=
  ⟨_, processFrame_other (by decide) (by decide) rfl, rfl⟩
/-- The shortest and the longest frame of variant FIXED with the minimum 9. -/
theorem test_witness_BatchSizes :
    (minLen .a9_13 .fixed).toNat ≤ (run 0 0 1 9).length ∧ (run 0 0 1 256).length ≤ 256 ∧
    (∃ out, processFrame (variantRecord .a9_13 .fixed) (some .control) (run 0 0 1 9) = .ok out) ∧
    ∃ t, exec (.feedSentinel ⟨0x7E, 1, 2⟩) (session fixed9 .waitForFirstByte none none none [] (some 1)) = .next t := by
  obtain ⟨b0, f, r, k, h0, hf, hr, hk⟩ := trailerBytes_exist (buf := run 0 0 1 9) (by simp)
  exact ⟨by simp [minLen], by simp, ⟨_, processFrame_control (by simp) h0 hf hr hk⟩,
    exec_answers (by simp) (accepts_next ..) rfl⟩
/-- V8.4 and a buffer of P = 9 with its flags byte at index 6. -/
theorem test_witness_HighFlagBitsAreIgnored :
    (0xF6 : Byte).extractLsb' 0 4 = (0x06 : Byte).extractLsb' 0 4 ∧ (0xF6 : Byte) ≠ 0x06 ∧
    3 ≤ (run 0xF6 0 1 9).length ∧ (run 0xF6 0 1 9)[(run 0xF6 0 1 9).length - 3]? = some ⟨0xF6, 6, 7⟩ :=
  ⟨by decide, by decide, by simp, by decide +kernel⟩
/-- The smallest and the largest payload of each row. -/
theorem test_witness_ChannelCountRange :
    (minLen .a9_13 .fixed).toNat ≤ 9 ∧ (minLen .a13_9 .fixed).toNat ≤ 13 ∧ (minLen .a13_9 .measured).toNat ≤ 9 ∧
    (minLen .a9_13 .measured).toNat ≤ 13 ∧ minLen .a9_13 .fixed = 9 ∧ minLen .a13_9 .fixed = 13 := by decide
/-- No channel, exactly full, and the largest count. -/
theorem test_witness_LoopUnpacksTheBitstream :
    11 * 0 ≤ 8 * (run 0 0 1 0).length ∧ 11 * 8 ≤ 8 * (run 0 0 1 11).length ∧ 11 * 186 ≤ 8 * (run 0 0 1 256).length := by
  simp
theorem test_witness_UnpackerRegistersHold : (186 : Nat) ≤ 186 := le_refl _
/-- V6.3's bytes and values. -/
theorem test_witness_PackedValuesUnpack :
    let buf := bytes 0 1 [0x01, 0x10, 0xC0, 0x00, 0xFE, 0x0F, 0x40, 0x00, 0x14, 0xC0, 0x00]
    let vals : List (BitVec 11) := [1, 2, 3, 2047, 1024, 0, 5, 6]
    11 * vals.length ≤ 8 * buf.length ∧ stream buf % 2 ^ (11 * vals.length) = packed vals := by decide +kernel
/-- The first and the last bit of a channel that crosses bytes. -/
theorem test_witness_ChannelBitsComeFromTheirBytes :
    (1 ≤ 2 ∧ 0 < 11 ∧ ([⟨1, 0, 1⟩, ⟨2, 1, 2⟩, ⟨3, 2, 3⟩] : List TimestampedByte)[(11 * (2 - 1) + 0) / 8]? = some ⟨2, 1, 2⟩) ∧
    (10 < 11 ∧ ([⟨1, 0, 1⟩, ⟨2, 1, 2⟩, ⟨3, 2, 3⟩] : List TimestampedByte)[(11 * (2 - 1) + 10) / 8]? = some ⟨3, 2, 3⟩) :=
  ⟨⟨by decide, by decide, rfl⟩, by decide, rfl⟩
theorem test_witness_BitTimeByVariant : (⟨0, 30, 40⟩ : TimestampedByte).start < (⟨0, 30, 40⟩ : TimestampedByte).stop := by
  decide +kernel
theorem test_witness_ChannelSpansAreContiguous :
    (0 : Time) < u ∧ (channelRecords [] 3 u 2)[0]? = some (channelRecord [] 3 u 1) ∧
    (channelRecords [] 3 u 2)[0 + 1]? = some (channelRecord [] 3 u 2) := ⟨by decide +kernel, rfl, rfl⟩
/-- The shortest frame, its bytes back to back. -/
theorem test_witness_StartOrderCondition :
    let buf := run 0 0 1 9
    BytesInOrder buf ∧ 9 ≤ buf.length ∧ buf[0]? = some ⟨0, 0, 1⟩ ∧ buf[buf.length - 3]? = some ⟨0, 6, 7⟩ ∧
    ∃ out, processFrame (variantRecord .a9_13 .fixed) (some .control) buf = .ok out := by
  obtain ⟨b0, f, r, k, h0, hf, hr, hk⟩ := trailerBytes_exist (buf := run 0 0 1 9) (by simp)
  refine ⟨⟨by decide +kernel, by decide +kernel⟩, by simp, by decide +kernel, by decide +kernel,
    _, processFrame_control (by simp) h0 hf hr hk⟩
/-- A step that consumes the last byte's predecessor, from a state that meets the invariants. -/
theorem test_witness_StepKeepsSessionInvariant :
    ∃ s t : State, Inv s ∧ s.host = [.feed ⟨0xAB, 26, 27⟩] ∧ step s = .next t ∧ t.fault = none := by
  obtain ⟨t, ht, hf⟩ := answers_of_leaves (p := fun t => t.fault == none)
    (r := step { reading .control (run 0 0 1 25) (some 25) with host := [.feed ⟨0xAB, 26, 27⟩] }) (by decide +kernel)
  exact ⟨{ reading .control (run 0 0 1 25) (some 25) with host := [.feed ⟨0xAB, 26, 27⟩] }, t,
    inv_congr (inv_reading .control (run 0 0 1 25) (some 25) (by simp)) rfl rfl rfl rfl rfl rfl rfl, rfl, ht,
    by simpa using hf⟩
theorem test_witness_StepKeepsSpansPositive :
    TimeInv State.reset ∧ OutputPositive State.reset ∧ TimeInv (reading .control [⟨0xAB, 4, 5⟩] (some 5)) := by
  refine ⟨⟨⟨by simp [State.reset, State.afterReset], by simp [State.reset, State.afterReset]⟩,
    by simp [State.reset, State.afterReset], by simp [State.reset, State.afterReset]⟩,
    ⟨by simp [State.reset, State.afterReset], by simp [State.reset, State.afterReset]⟩, ⟨⟨?_, ?_⟩, ?_, ?_⟩⟩
  · simp [reading, session]; decide +kernel
  · simp [reading, session]
  · simp [reading, session]
  · simp [reading, session]
theorem test_witness_StepAlwaysGoesOn : Inv (reading .control (run 0 0 1 26) (some 26)) :=
  inv_reading _ _ _ (by simp)
/-- The shortest length the variant accepts. -/
theorem test_witness_HeaderRecordsPerVariant :
    let s := session fixed9 .waitForFirstByte none none none [] none
    s.fault = none ∧ s.refused.config = false ∧ s.state = .waitForFirstByte ∧
    StreamInOrder s.lastEnd [⟨0x7E, 0, 1⟩, ⟨0x08, 1, 2⟩, ⟨0x01, 2, 3⟩] ∧
    s.cfg.minValidPayloadLen.toNat ≤ (0x08 : Byte).toNat + 1 := by
  refine ⟨rfl, rfl, rfl, ⟨by decide +kernel, by simp [session], by decide +kernel, ?_, by decide +kernel, ?_, trivial⟩,
    by decide⟩
  · rintro e ⟨⟩; decide +kernel
  · rintro e ⟨⟩; decide +kernel
theorem test_witness_FrameTakesItsLength :
    let s := reading .control [] (some 3)
    Inv s ∧ s.fault = none ∧ s.refused.config = false ∧ s.state = .readData ∧ s.buf = [] ∧ s.expectedLength = some 27 ∧
    (run 0x7E 3 1 27).length = (27 : BitVec 9).toNat ∧ StreamInOrder s.lastEnd (run 0x7E 3 1 27) :=
  ⟨inv_reading _ _ _ (by simp), rfl, rfl, rfl, rfl, rfl, by simp, streamInOrder_run ..⟩
theorem test_witness_ResynchronisesWithin258Bytes :
    let s := reading .control [] (some 3)
    Inv s ∧ s.fault = none ∧ s.refused.config = false ∧ s.state ≠ .waitForUplinkType ∧ s.state ≠ .waitForUplinkData ∧
    (run 0xFF 3 1 258).length = 258 ∧ StreamInOrder s.lastEnd (run 0xFF 3 1 258) :=
  ⟨inv_reading _ _ _ (by simp), rfl, rfl, by simp [reading, session], by simp [reading, session], by simp,
    streamInOrder_run ..⟩
theorem test_witness_UplinkBranchIsLeftAfterTwoBytes :
    let s := session fixed9 .waitForFirstByte none none none [] none
    s.fault = none ∧ s.refused.config = false ∧ s.state = .waitForFirstByte ∧
    StreamInOrder s.lastEnd [⟨0x08, 0, 1⟩, ⟨0x81, 1, 2⟩, ⟨0x7E, 2, 3⟩] := by
  refine ⟨rfl, rfl, rfl, by decide +kernel, by simp [session], by decide +kernel, ?_, by decide +kernel, ?_, trivial⟩
  · rintro e ⟨⟩; decide +kernel
  · rintro e ⟨⟩; decide +kernel

end Sys2Proof.Tests
end

/-! The step on the host's next element (00_scope.md R11, 30_encoding.md R58). -/

section
namespace Sys2Proof.Machine

/-- With `in_ready` 1 the element at the head of the host's list is consumed. -/
theorem step_of_feed {s : State} {x : TimestampedByte} {rest : List HostMove} (hh : s.host = .feed x :: rest)
    (hq : s.outQueue = []) : step s = feedOne x { s with host := rest } := by
  have hm : nextMove s.inReady s.host = some (.feed x, rest) := by
    rw [(inReady_eq_true s).2 hq, hh]
    rfl
  simp only [step, nextTurn, hm]

/-- Settles O26: the element is consumed, and Decode reads nothing of the host's list, so it selects the same operation once the
move is used up. -/
theorem stepRunsDecodedInstruction : Obligations.StepRunsDecodedInstruction := by
  intro s x rest i hh hq hd
  rw [decode_inputWord] at hd
  rw [step_of_feed hh hq]
  exact feedOne_of_decode hd

end Sys2Proof.Machine
end

/-! What the step procedure of 40_framing.md R61 keeps, and the frame of each FEED operation (10_state.md R23, R30). -/

section
namespace Sys2Proof.Machine

/-- A field that a fault leaves alone and that the operation's own effect leaves alone is kept by the whole procedure. -/
theorem runElement_keeps_field {α : Type} {s t : State} {x : TimestampedByte} {op : State → OpResult} (f : State → α)
    (h : runElement x op s = .next t) (hfault : ∀ k, f (s.raiseFault k) = f s)
    (hop : ∀ u out, op s = .ok (u, out) → f ({ u with lastEnd := some x.stop }.emit out) = f s) : f t = f s := by
  rcases runElement_next h with ⟨-, rfl⟩ | ⟨-, k, rfl⟩ | ⟨-, u, out, ho, rfl⟩
  · rfl
  · exact hfault k
  · exact hop u out ho

/-! ### What no FEED operation writes (10_state.md R23, R30; 60_exceptions.md R114) -/

/-- Only the two uplink operations give a refusal mark. -/
theorem feedOp_refused {i : Instr} {s u : State} {out : List Annotation} (hType : ∀ x, i ≠ .feedUplType x)
    (hData : ∀ x, i ≠ .feedUplData x) (h : feedOp i s = .ok (u, out)) : u.refused = s.refused := by
  cases i with
  | feedUplType x => exact absurd rfl (hType x)
  | feedUplData x => exact absurd rfl (hData x)
  | feedTypeCtrl x | feedTypeDl x | feedTypeUnk x => obtain ⟨-, rfl, -⟩ := opType_eq_ok h; rfl
  | feedData x => obtain ⟨-, rfl, -⟩ := opData_eq_ok h; rfl
  | feedDataLast x => obtain ⟨-, rfl, -⟩ := opDataLast_eq_ok h; rfl
  | _ => cases h <;> rfl

theorem headerByte_length_le (s : State) (tag : Tag) (v : BitVec 11) (x : TimestampedByte) :
    (headerByte s tag v x).length ≤ 1 := by
  unfold headerByte
  split <;> simp

/-- Every operation but FEED.DATA_LAST has a batch of at most one record (43_trailer.md R109). -/
theorem feedOp_batch_le_one {i : Instr} {s u : State} {out : List Annotation} (hLast : ∀ x, i ≠ .feedDataLast x)
    (h : feedOp i s = .ok (u, out)) : out.length ≤ 1 := by
  cases i with
  | feedDataLast x => exact absurd rfl (hLast x)
  | feedSentinel x | feedLenOk x => cases h; exact headerByte_length_le ..
  | feedTypeCtrl x | feedTypeDl x | feedTypeUnk x =>
    obtain ⟨-, -, ⟨-, rfl⟩ | ⟨-, t0, -, rfl⟩⟩ := opType_eq_ok h <;> simp
  | feedData x => obtain ⟨-, -, rfl⟩ := opData_eq_ok h; simp
  | _ => cases h <;> simp

/-- The procedure adds the operation's batch to the records on their way out, and nothing else. -/
theorem runElement_outQueue_length {s t : State} {x : TimestampedByte} {op : State → OpResult} {n : Nat}
    (hk : KeepsOutside op) (hn : ∀ u out, op s = .ok (u, out) → out.length ≤ n) (h : runElement x op s = .next t) :
    t.outQueue.length ≤ s.outQueue.length + n := by
  rcases runElement_next h with ⟨-, rfl⟩ | ⟨-, k, rfl⟩ | ⟨-, u, out, ho, rfl⟩
  · omega
  · simp
  · obtain ⟨-, -, -, hq, -⟩ := hk _ _ _ ho
    have := hn u out ho
    simpa [hq, markLast_length] using this

/-- Settles O31: the fields no operation writes are kept by the step procedure; the refusal marks and the number of records are
read off each operation. -/
theorem feedOperationsFrame : Obligations.FeedOperationsFrame := by
  intro s t i hi h
  rw [exec_feed hi] at h
  have hk := keepsOutside_feedOp i
  obtain ⟨hcfg, htaken, hhost, hconfig, huplink, hqueue⟩ := runElement_keeps hk h
  exact ⟨hcfg, htaken, hhost, hconfig,
    fun hType hData => runElement_keeps_field State.refused h (fun _ => rfl) fun _ _ => feedOp_refused hType hData,
    huplink, hqueue,
    fun hLast => runElement_outQueue_length hk (fun _ _ => feedOp_batch_le_one hLast) h⟩

/-! ### The session fields each operation leaves alone (10_state.md R30) -/

/-- The reserved codes write the fault alone. -/
theorem opIllegal_writes_fault {s t : State} {st : FsmState} {x : TimestampedByte}
    (h : runElement x (opIllegal st) s = .next t) : t = { s with fault := t.fault } := by
  rcases runElement_next h with ⟨-, rfl⟩ | ⟨-, k, rfl⟩ | ⟨-, u, out, ho, -⟩
  · rfl
  · rfl
  · cases ho

/-- `runElement_keeps_field` for a FEED instruction. -/
theorem exec_keeps_field {α : Type} {i : Instr} {s t : State} (f : State → α) (h : exec i s = .next t)
    (hi : ∀ cfg, i ≠ .reset cfg) (hfault : ∀ k, f (s.raiseFault k) = f s)
    (hop : ∀ u out, feedOp i s = .ok (u, out) → f ({ u with lastEnd := some (feedElement i).stop }.emit out) = f s) :
    f t = f s :=
  runElement_keeps_field f ((exec_feed hi s).symm.trans h) hfault hop

/-- Settles O32, clause by clause: each operation's pseudocode writes no other field of the session. -/
theorem sessionFieldsFrame : Obligations.SessionFieldsFrame := by
  intro s t x
  refine ⟨fun h => ?sentinel, fun h => ?uplink, fun h => ?idle, fun h => ?lenOk, fun h => ?type, fun h => ?data,
    fun h => ?abandon, fun st h => opIllegal_writes_fault h⟩
  case sentinel =>
    simpa using exec_keeps_field (fun v => (v.expectedLength, v.frameType, v.buf)) h (by simp) (fun _ => rfl)
      (by rintro _ _ ⟨⟩; rfl)
  case uplink =>
    rcases h with h | h <;>
      simpa using exec_keeps_field (fun v => (v.expectedLength, v.frameType, v.buf, v.headerStartTime, v.outQueue)) h
        (by simp) (fun _ => rfl) (by rintro _ _ ⟨⟩; simp)
  case idle =>
    simpa using exec_keeps_field (fun v => (v.state, v.expectedLength, v.frameType, v.buf, v.headerStartTime, v.outQueue)) h
      (by simp) (fun _ => rfl) (by rintro _ _ ⟨⟩; simp)
  case lenOk =>
    simpa using exec_keeps_field (fun v => (v.frameType, v.headerStartTime)) h (by simp) (fun _ => rfl)
      (by rintro _ _ ⟨⟩; rfl)
  case type =>
    rcases h with h | h | h <;>
      simpa using exec_keeps_field (fun v => (v.expectedLength, v.buf, v.headerStartTime)) h (by simp) (fun _ => rfl)
        (by intro u out ho; obtain ⟨-, rfl, -⟩ := opType_eq_ok ho; rfl)
  case data =>
    simpa using exec_keeps_field (fun v => (v.state, v.expectedLength, v.frameType, v.headerStartTime, v.outQueue)) h
      (by simp) (fun _ => rfl) (by intro u out ho; obtain ⟨-, rfl, rfl⟩ := opData_eq_ok ho; simp)
  case abandon =>
    rcases h with h | h <;> exact exec_keeps_field State.outQueue h (by simp) (fun _ => rfl) (by rintro _ _ ⟨⟩; simp)

end Sys2Proof.Machine
end

/-! What the host's move can change of the configuration (10_state.md R23, 70_reset_and_hazards.md R128). -/

section
namespace Sys2Proof.Machine

/-- An element consumed leaves the configuration as it is. -/
theorem feedOne_cfg {s t : State} {x : TimestampedByte} (h : feedOne x s = .next t) : t.cfg = s.cfg := by
  obtain ⟨op, hop, hk⟩ := feedOne_keeps s x
  exact (runElement_keeps hk (hop.symm.trans h)).1

/-- Settles O33: of the things a step can be (`step_cases`), only the reset and the construction write the configuration, and
both use up their own move alone. -/
theorem configurationChangesAtResetOnly : Obligations.ConfigurationChangesAtResetOnly := by
  intro s t h hne
  obtain hw | ⟨x, rest, -, -, hf⟩ | ⟨held, m, rest, hhost, -, hmove⟩ := step_cases s
  · cases hw.symm.trans h
    exact absurd rfl hne
  · exact absurd (feedOne_cfg (hf.symm.trans h)) hne
  · obtain ⟨-, hs⟩ | ⟨v, hm, hs⟩ | ⟨cfg, hm, hs⟩ := hmove <;> cases hs.symm.trans h
    · exact absurd (State.takeRecord_cfg _) hne
    · exact ⟨held, m, rest, hhost, rfl, .inl ⟨v, hm⟩⟩
    · exact ⟨held, m, rest, hhost, rfl, .inr ⟨cfg, hm⟩⟩

end Sys2Proof.Machine
end

/-! Reads of absent fields (10_state.md R30, R33; 20_memory.md R36). -/

section
namespace Sys2Proof.Machine

/-- Where Decode reads an absent field, an accepted element records NONE_READ of it. -/
theorem feedOne_of_decode_error {s : State} {x : TimestampedByte} {f : FieldName} (ha : Accepts s x)
    (h : decodeElement s.decodeCtx s.state x = .error f) : feedOne x s = .next (s.raiseFault (.noneRead f)) := by
  unfold feedOne
  rw [decode_fetchWord, h]
  exact runElement_fault ha rfl

/-- READ_DATA compares BufLen with `expected_length`. -/
theorem decodeElement_noExpected {c : DecodeCtx} {st : FsmState} (x : TimestampedByte) (hst : st = .readData)
    (he : c.expected = none) : decodeElement c st x = .error .expectedLength := by
  simp [decodeElement, decodeData, hst, he]

/-- A fault that the shared operation of the type bytes raises, whatever the frame type, is taken by each of the three. -/
theorem exec_type_fault {s : State} {x : TimestampedByte} {k : FaultKind} (ha : Accepts s x)
    (hop : ∀ ft own merged, opType ft own merged x s = .error (.fault k)) :
    ∀ i ∈ [Instr.feedTypeCtrl x, .feedTypeDl x, .feedTypeUnk x], exec i s = .next (s.raiseFault k) := by
  intro i hi
  simp only [List.mem_cons, List.not_mem_nil, or_false] at hi
  obtain rfl | rfl | rfl := hi <;> exact runElement_fault ha (hop _ _ _)

/-- With a free buffer entry, what frame processing raises is what FEED.DATA_LAST raises. -/
theorem exec_dataLast_fault {s : State} {x : TimestampedByte} {k : FaultKind} (ha : Accepts s x) (hl : s.buf.length < 256)
    (hp : processFrame s.cfg s.frameType (s.buf ++ [x]) = .error (.fault k)) :
    exec (.feedDataLast x) s = .next (s.raiseFault k) := by
  have hop : opDataLast x s = .error (.fault k) := by
    simp [opDataLast, append_ok x hl, hp, bind, Except.bind]
  exact runElement_fault ha hop

/-- Settles O19: each read of an absent field raises its fault in the operation, and the step procedure takes it. -/
theorem absentFieldFaults : Obligations.AbsentFieldFaults := by
  intro s x ha
  refine ⟨fun hst he => ?decode, fun he => ?expected, fun he hm ht => ?headerStart, fun hl hf => ?frameType,
    fun hl hf => ?buf⟩
  case decode => exact feedOne_of_decode_error ha (decodeElement_noExpected x hst he)
  case expected => exact exec_type_fault ha fun ft own merged => opType_noExpected ft own merged x he
  case headerStart => exact exec_type_fault ha fun ft own merged => opType_noHeaderStart ft own merged x he hm ht
  case frameType => exact exec_dataLast_fault ha hl (by rw [hf]; exact processFrame_noType ..)
  case buf =>
    have hl : s.buf.length < 2 := hl
    exact exec_dataLast_fault ha (by omega) (by rw [hf]; exact processFrame_short _ (by simpa using by omega))

end Sys2Proof.Machine
end

/-! The invariants of Safety.lean at reset (10_state.md R22, R31) and after every step. -/

section
namespace Sys2Proof.Machine

/-! ### Sessions with nothing in them -/

/-- A session that holds no byte and no header start holds no time to be in order. -/
theorem timeInv_of_emptySession {t : State} (hb : t.buf = []) (hh : t.headerStartTime = none) : TimeInv t :=
  ⟨by simp [BytesInOrder, hb], by simp [hb], by simp [hh]⟩

theorem outputPositive_of_noRecords {t : State} (hq : t.outQueue = []) (ht : t.taken = []) : OutputPositive t := by
  simp [OutputPositive, hq, ht]

/-- A block reset meets the invariant, whatever record it loads: a record that is not admitted leaves the CONFIG mark. -/
theorem inv_blockReset (s : State) (cfg : ProtocolVariant) : Inv (s.blockReset cfg) :=
  inv_of_emptySession rfl rfl rfl rfl rfl (by simp)

/-- Settles O50. -/
theorem resetMeetsInvariants : Obligations.ResetMeetsInvariants :=
  ⟨inv_of_emptySession rfl rfl rfl rfl rfl fun _ => admitted_portRecord 0, timeInv_of_emptySession rfl rfl,
    outputPositive_of_noRecords rfl rfl⟩

/-- The frame reset leaves an empty session, and the configuration as it was (10_state.md R21). -/
theorem inv_frameReset {s : State} (h : s.refused.config = false → admitted s.cfg = true) : Inv s.frameReset :=
  inv_of_emptySession rfl rfl rfl rfl rfl h

/-- Outside a frame the session holds nothing (10_state.md R22). -/
theorem inv_session_empty {s : State} (h : Inv s) (hs : ¬ InFrame s.state) :
    s.expectedLength = none ∧ s.frameType = none ∧ s.headerStartTime = none ∧ s.buf = [] := by
  have hType : s.state ≠ .waitForType := fun e => hs (.inr (.inl e))
  have hData : s.state ≠ .readData := fun e => hs (.inr (.inr e))
  exact ⟨by simpa [hType, hData] using h.1.expectedPresent, by simpa [hData] using h.1.frameTypePresent,
    by simpa [hs] using h.1.headerStartPresent, inv_buf_empty h hData⟩

/-! ### What each operation makes of the invariant -/

/-- The moves between the states outside a frame. -/
theorem inv_setState_outsideFrame {s : State} (h : Inv s) (hs : ¬ InFrame s.state) {st : FsmState} (hst : ¬ InFrame st)
    (hr : st ≠ .reserved6 ∧ st ≠ .reserved7) : Inv { s with state := st } := by
  obtain ⟨he, hf, hh, hb⟩ := inv_session_empty h hs
  have hType : st ≠ .waitForType := fun e => hst (.inr (.inl e))
  have hData : st ≠ .readData := fun e => hst (.inr (.inr e))
  exact ⟨⟨by simp [State.bufLen, hb], by simp [he, hType, hData], by simp [hf, hData], by simp [hh, hst], by simp [hData]⟩,
    ⟨hr, h.2.configAdmitted, by simp [he]⟩⟩

theorem inv_refuseUplink {s : State} (h : Inv s) : Inv s.refuseUplink := inv_congr h rfl rfl rfl rfl rfl rfl rfl

/-- The sentinel starts a frame: the header start alone is present in WAIT_FOR_LEN. -/
theorem inv_opSentinel {s u : State} {x : TimestampedByte} {out : List Annotation} (h : Inv s)
    (hst : s.state = .waitForFirstByte) (ho : opSentinel x s = .ok (u, out)) : Inv u := by
  obtain ⟨he, hf, -, hb⟩ := inv_session_empty h (by simp [InFrame, hst])
  cases ho
  exact ⟨⟨by simp [State.bufLen, hb], by simp [he], by simp [hf], by simp [InFrame], by simp⟩,
    ⟨by simp, h.2.configAdmitted, by simp [he]⟩⟩

/-- A length that is accepted is at least the variant's minimum, and at most 256 (40_framing.md R65, R73). -/
theorem inv_opLenOk {s u : State} {x : TimestampedByte} {out : List Annotation} (h : Inv s) (hst : s.state = .waitForLen)
    (hmin : s.cfg.minValidPayloadLen.toNat ≤ x.value.toNat + 1) (ho : opLenOk x s = .ok (u, out)) : Inv u := by
  have hf : s.frameType = none := by simpa [hst] using h.1.frameTypePresent
  have hh : s.headerStartTime.isSome := h.1.headerStartPresent.2 (.inl hst)
  have hx := x.value.isLt
  cases ho
  exact ⟨⟨by simp [State.bufLen], by simp, by simp [hf], by simp [hh, InFrame], by simp⟩,
    ⟨by simp, h.2.configAdmitted, by simp [expectedLengthOf_toNat]; omega⟩⟩

/-- A type byte starts the payload: the buffer is empty, and the length expected is at least 9. -/
theorem inv_opType {s u : State} {ft : FrameType} {own merged : Tag} {x : TimestampedByte} {out : List Annotation}
    (h : Inv s) (hr : s.refused.config = false) (hst : s.state = .waitForType)
    (ho : opType ft own merged x s = .ok (u, out)) : Inv u := by
  have he : s.expectedLength.isSome := h.1.expectedPresent.2 (.inl hst)
  have hh : s.headerStartTime.isSome := h.1.headerStartPresent.2 (.inr (.inl hst))
  have hb := inv_buf_empty h (by simp [hst])
  have hmin := inv_minLen h hr
  have hlen : ∀ e, s.expectedLength = some e → 0 < e.toNat := fun e he' => by
    have := (h.2.expectedRange e he').1
    omega
  obtain ⟨-, rfl, -⟩ := opType_eq_ok ho
  exact ⟨⟨by simp, by simp [he], by simp, by simp [hh, InFrame], by simpa [State.bufLen, hb] using hlen⟩,
    ⟨by simp, h.2.configAdmitted, h.2.expectedRange⟩⟩

/-- A payload byte before the last leaves the buffer below the length expected. -/
theorem inv_opData {s u : State} {x : TimestampedByte} {out : List Annotation} (h : Inv s) (hst : s.state = .readData)
    {e : BitVec 9} (he : s.expectedLength = some e) (hl : s.bufLen + 1 < e.toNat) (ho : opData x s = .ok (u, out)) :
    Inv u := by
  obtain ⟨-, rfl, -⟩ := opData_eq_ok ho
  have hbelow : ∀ e', s.expectedLength = some e' → (s.buf ++ [x]).length < e'.toNat := by
    intro e' he'
    cases he.symm.trans he'
    simpa [State.bufLen] using hl
  exact ⟨⟨fun _ => hst, h.1.expectedPresent, h.1.frameTypePresent, h.1.headerStartPresent, fun _ => hbelow⟩,
    ⟨h.2.notReserved, h.2.configAdmitted, h.2.expectedRange⟩⟩

/-! ### The step -/

/-- The step procedure keeps the invariant where its operation does: a fault and `last_end` are no part of it. -/
theorem inv_runElement {s t : State} {x : TimestampedByte} {op : State → OpResult} (h : Inv s)
    (hop : s.refused.config = false → ∀ u out, op s = .ok (u, out) → Inv u) (hr : runElement x op s = .next t) : Inv t := by
  obtain ⟨-, rfl⟩ | ⟨-, k, rfl⟩ | ⟨⟨-, hc, -⟩, u, out, ho, rfl⟩ := runElement_next hr
  · exact h
  · exact inv_congr h rfl rfl rfl rfl rfl rfl rfl
  · exact inv_congr (hop hc u out ho) rfl rfl rfl rfl rfl rfl rfl

/-- One element keeps the invariant: an argument for each operation Decode can select in its state. -/
theorem inv_feedOne {s t : State} {x : TimestampedByte} (h : Inv s) (hf : feedOne x s = .next t) : Inv t := by
  obtain ⟨op, hop, hcases⟩ := feedOne_cases s x
  refine inv_runElement h (fun hc u out ho => ?_) (hop.symm.trans hf)
  obtain ⟨hst, -, rfl⟩ | ⟨hst, -, rfl⟩ | ⟨-, -, -, rfl⟩ | ⟨hst, hmin, rfl⟩ | ⟨-, -, rfl⟩ | ⟨hst, -, rfl⟩ | ⟨hst, -, rfl⟩ |
    ⟨hst, -, -, rfl⟩ | ⟨-, -, rfl⟩ | ⟨hst, ⟨e, he, hl⟩, rfl⟩ | ⟨-, -, rfl⟩ | ⟨-, -, rfl⟩ | ⟨hst, rfl⟩ | ⟨-, rfl⟩ | ⟨-, rfl⟩ :=
    hcases
  · exact inv_opSentinel h hst ho
  · cases ho; exact inv_setState_outsideFrame h (by simp [InFrame, hst]) (by simp [InFrame]) (by simp)
  · cases ho; exact h
  · exact inv_opLenOk h hst hmin ho
  · cases ho; exact inv_frameReset h.2.configAdmitted
  · exact inv_opType h hc hst ho
  · exact inv_opType h hc hst ho
  · exact inv_opType h hc hst ho
  · cases ho
  · exact inv_opData h hst he hl ho
  · obtain ⟨-, rfl, -⟩ := opDataLast_eq_ok ho; exact inv_frameReset h.2.configAdmitted
  · cases ho
  · cases ho; exact inv_setState_outsideFrame (inv_refuseUplink h) (by simp [InFrame, hst]) (by simp [InFrame]) (by simp)
  · cases ho; exact inv_frameReset h.2.configAdmitted
  · cases ho

/-- The host's moves to come are no part of the invariant. -/
theorem inv_setHost {s : State} (h : Inv s) (rest : List HostMove) : Inv { s with host := rest } :=
  inv_congr h rfl rfl rfl rfl rfl rfl rfl

theorem inv_takeRecord {s : State} (h : Inv s) : Inv s.takeRecord :=
  inv_congr h (by simp) (by simp) (by simp) (by simp) (by simp) (by simp) (by simp)

/-- Settles O52, by the things a step can be (`step_cases`): an element consumed keeps the invariant operation by operation, a
transfer reads nothing of it, and a reset establishes it. -/
theorem stepKeepsSessionInvariant : Obligations.StepKeepsSessionInvariant := by
  intro s t h ht
  obtain hw | ⟨x, rest, -, -, hf⟩ | ⟨held, m, rest, -, -, hmove⟩ := step_cases s
  · cases hw.symm.trans ht
    exact h
  · exact inv_feedOne (inv_setHost h rest) (hf.symm.trans ht)
  · obtain ⟨-, hs⟩ | ⟨v, -, hs⟩ | ⟨cfg, -, hs⟩ := hmove <;> cases hs.symm.trans ht
    · exact inv_takeRecord (inv_setHost h _)
    · exact inv_blockReset _ _
    · exact inv_blockReset _ _

end Sys2Proof.Machine
end

/-! The append to a payload buffer with no entry left (20_memory.md R35, 10_state.md R19). -/

section
namespace Sys2Proof.Machine

theorem opData_full {s : State} (x : TimestampedByte) (h : 256 ≤ s.bufLen) :
    opData x s = .error (.stop .noBufferEntry) := by
  have ha : append s.buf x = .error (.stop .noBufferEntry) := append_full x h
  simp only [opData, ha, bind, Except.bind]

/-- The append comes first in FEED.DATA_LAST, so no frame is processed. -/
theorem opDataLast_full {s : State} (x : TimestampedByte) (h : 256 ≤ s.bufLen) :
    opDataLast x s = .error (.stop .noBufferEntry) := by
  have ha : append s.buf x = .error (.stop .noBufferEntry) := append_full x h
  simp only [opDataLast, ha, bind, Except.bind]

/-- Settles O20: both operations begin with the append, and an accepted element passes its stop to the host. -/
theorem fullBufferStopsAppend : Obligations.FullBufferStopsAppend := fun _ x ha hfull =>
  ⟨runElement_stop ha (opData_full x hfull), runElement_stop ha (opDataLast_full x hfull)⟩

end Sys2Proof.Machine
end

/-! The encoding of 30_encoding.md R43, R46: Decode and Encode are inverse on the operations a context selects. -/

section
namespace Sys2Proof

/-! ### READ_DATA: the count of bytes against `expected_length` decides (30_encoding.md R46) -/

theorem decodeElement_data {c : DecodeCtx} {e : BitVec 9} (x : TimestampedByte) (he : c.expected = some e)
    (h : c.bufLen + 1 < e.toNat) : decodeElement c .readData x = .ok (.feedData x) := by
  simp [decodeElement, decodeData, he, h]

theorem decodeElement_dataLast {c : DecodeCtx} {e : BitVec 9} (x : TimestampedByte) (he : c.expected = some e)
    (h : c.bufLen + 1 = e.toNat) : decodeElement c .readData x = .ok (.feedDataLast x) := by
  simp [decodeElement, decodeData, he, h]

theorem decodeElement_overfull {c : DecodeCtx} {e : BitVec 9} (x : TimestampedByte) (he : c.expected = some e)
    (h : e.toNat < c.bufLen + 1) : decodeElement c .readData x = .ok (.feedIllegal .readData x) := by
  simp [decodeElement, decodeData, he, show ¬ c.bufLen + 1 < e.toNat by omega, show c.bufLen + 1 ≠ e.toNat by omega]

/-! ### The round trip -/

/-- An operation whose encoding is a word is given back where the decoder of the word's state gives it. -/
theorem decode_encode_of_word {c : DecodeCtx} {i : Instr} {st : FsmState} {x : TimestampedByte}
    (he : encode i = .word (inputWord st x.value) x.start x.stop) (hd : decodeElement c st x = .ok i) :
    decode c (encode i) = .ok i := by
  rw [he, decode_inputWord, hd]

/-- RESET goes through the port where a value of `cfg_variant` selects its record, and through the construction elsewhere. -/
theorem decode_encode_reset (c : DecodeCtx) (cfg : ProtocolVariant) : decode c (encode (.reset cfg)) = .ok (.reset cfg) := by
  simp only [encode]
  split
  · next h => rw [h]; rfl
  · split
    · next h => rw [h]; rfl
    · rfl

/-- Settles O22: the byte and the count that the row of each operation asks for are what the decoder of its state tests. -/
theorem decodeOfEncodeIsTheInstruction : Obligations.DecodeOfEncodeIsTheInstruction := by
  intro c i hw hs
  cases i with
  | feedSentinel x | feedUplinkStart x | feedIdle x =>
    refine decode_encode_of_word rfl ?_
    simp_all [Instr.wf, decodeElement, decodeFirstByte]
  | feedLenOk x | feedLenBad x =>
    refine decode_encode_of_word rfl ?_
    simpa [decodeElement, decodeLen, expectedLengthOf_toNat, DecodeCtx.selects] using hs
  | feedTypeCtrl x | feedTypeDl x | feedTypeUnk x =>
    refine decode_encode_of_word rfl ?_
    simp_all [Instr.wf, decodeElement, decodeType]
  | feedData x =>
    obtain ⟨e, he, hl⟩ := (Option.any_eq_true _ _).1 hs
    exact decode_encode_of_word rfl (decodeElement_data x he (of_decide_eq_true hl))
  | feedDataLast x =>
    obtain ⟨e, he, hl⟩ := (Option.any_eq_true _ _).1 hs
    exact decode_encode_of_word rfl (decodeElement_dataLast x he (of_decide_eq_true hl))
  | feedUplType x | feedUplData x => exact decode_encode_of_word rfl rfl
  | feedIllegal st x =>
    have hst : st = .reserved6 ∨ st = .reserved7 ∨ st = .readData := by simpa [Instr.wf, or_assoc] using hw
    obtain rfl | rfl | rfl := hst
    · exact decode_encode_of_word rfl rfl
    · exact decode_encode_of_word rfl rfl
    · obtain ⟨e, he, hl⟩ := (Option.any_eq_true _ _).1 hs
      exact decode_encode_of_word rfl (decodeElement_overfull x he (of_decide_eq_true hl))
  | reset cfg => exact decode_encode_reset c cfg

/-! ### Every word selects one operation -/

/-- The conditions of the rows of one state cover every byte and every count (30_encoding.md R46). -/
theorem exists_selected (c : DecodeCtx) (st : FsmState) (x : TimestampedByte)
    (h : st = .readData → c.expected.isSome = true) :
    ∃ i : Instr, i.wf = true ∧ c.selects i = true ∧ encode i = .word (inputWord st x.value) x.start x.stop := by
  cases st with
  | waitForFirstByte =>
    by_cases hSentinel : x.value = 0x7E
    · exact ⟨.feedSentinel x, by simp [Instr.wf, hSentinel], rfl, rfl⟩
    · by_cases hUplink : x.value = 0x08
      · exact ⟨.feedUplinkStart x, by simp [Instr.wf, hUplink], rfl, rfl⟩
      · exact ⟨.feedIdle x, by simpa [Instr.wf] using ⟨hSentinel, hUplink⟩, rfl, rfl⟩
  | waitForLen =>
    obtain hl | hl := Nat.lt_or_ge (x.value.toNat + 1) c.minLen.toNat
    · exact ⟨.feedLenBad x, rfl, decide_eq_true hl, rfl⟩
    · exact ⟨.feedLenOk x, rfl, decide_eq_true hl, rfl⟩
  | waitForType =>
    by_cases hControl : x.value = 0x00
    · exact ⟨.feedTypeCtrl x, by simp [Instr.wf, hControl], rfl, rfl⟩
    · by_cases hDownlink : x.value = 0x01
      · exact ⟨.feedTypeDl x, by simp [Instr.wf, hDownlink], rfl, rfl⟩
      · exact ⟨.feedTypeUnk x, by simpa [Instr.wf] using ⟨hControl, hDownlink⟩, rfl, rfl⟩
  | readData =>
    obtain ⟨e, he⟩ := Option.isSome_iff_exists.1 (h rfl)
    obtain hl | hl | hl := Nat.lt_trichotomy (c.bufLen + 1) e.toNat
    · exact ⟨.feedData x, rfl, by simp [DecodeCtx.selects, he, hl], rfl⟩
    · exact ⟨.feedDataLast x, rfl, by simp [DecodeCtx.selects, he, hl], rfl⟩
    · exact ⟨.feedIllegal .readData x, rfl, by simpa [DecodeCtx.selects, he] using hl, rfl⟩
  | waitForUplinkType => exact ⟨.feedUplType x, rfl, rfl, rfl⟩
  | waitForUplinkData => exact ⟨.feedUplData x, rfl, rfl, rfl⟩
  | reserved6 => exact ⟨.feedIllegal .reserved6 x, rfl, rfl, rfl⟩
  | reserved7 => exact ⟨.feedIllegal .reserved7 x, rfl, rfl, rfl⟩

/-- Settles O23: the rows cover the word, and by the round trip (O22) Decode gives every operation they select: there is but
one. -/
theorem everyWordSelectsOneOperation : Obligations.EveryWordSelectsOneOperation := by
  intro c w t0 t1 h
  obtain ⟨i, hw, hs, he⟩ := exists_selected c (wordState w) ⟨wordByte w, t0, t1⟩ h
  rw [inputWord_wordState_wordByte] at he
  have hi : decode c (.word w t0 t1) = .ok i := he ▸ decodeOfEncodeIsTheInstruction c i hw hs
  refine ⟨i, hi, hw, hs, he, fun j hwj hsj hej => ?_⟩
  have hj : decode c (.word w t0 t1) = .ok j := hej ▸ decodeOfEncodeIsTheInstruction c j hwj hsj
  exact Except.ok.inj (hj.symm.trans hi)

/-- Settles O24. -/
theorem sampleWordsDecode : Obligations.SampleWordsDecode := by
  unfold Obligations.SampleWordsDecode
  decide

end Sys2Proof
end

/-! The fold of `Step` over a stream (00_scope.md R11), and the payload of a frame (30_encoding.md R50; 40_framing.md R70, R71). -/

section
namespace Sys2Proof.Machine

/-! ### The fold over a stream -/

theorem feedAll_cons {s t : State} {x : TimestampedByte} (xs : List TimestampedByte) (h : feedOne x s = .next t) :
    feedAll (x :: xs) s = feedAll xs t := by
  simp [feedAll, h]

theorem feedAll_append {s t : State} {xs : List TimestampedByte} (ys : List TimestampedByte) (h : feedAll xs s = .next t) :
    feedAll (xs ++ ys) s = feedAll ys t := by
  induction xs generalizing s with
  | nil => cases h; rfl
  | cons x xs ih =>
    cases hf : feedOne x s with
    | next u =>
      rw [feedAll_cons xs hf] at h
      rw [List.cons_append, feedAll_cons _ hf]
      exact ih h
    | fault f => simp [feedAll, hf] at h
    | refused r => simp [feedAll, hf] at h

theorem feedAll_one (x : TimestampedByte) (s : State) : feedAll [x] s = feedOne x s := by
  cases h : feedOne x s <;> simp [feedAll, h]

/-- The invariant holds after every stream that is consumed. -/
theorem inv_feedAll {s t : State} {xs : List TimestampedByte} (h : Inv s) (hf : feedAll xs s = .next t) : Inv t := by
  induction xs generalizing s with
  | nil => cases hf; exact h
  | cons x xs ih =>
    cases hone : feedOne x s with
    | next u => exact ih (inv_feedOne h hone) (by rwa [feedAll_cons xs hone] at hf)
    | fault f => simp [feedAll, hone] at hf
    | refused r => simp [feedAll, hone] at hf

/-- The end of the last byte consumed, once a stream is (10_state.md R28). -/
def lastEndAfter (lastEnd : Option Time) (xs : List TimestampedByte) : Option Time :=
  xs.foldl (fun _ x => some x.stop) lastEnd

theorem streamInOrder_append (lastEnd : Option Time) (xs ys : List TimestampedByte) :
    StreamInOrder lastEnd (xs ++ ys) ↔ StreamInOrder lastEnd xs ∧ StreamInOrder (lastEndAfter lastEnd xs) ys := by
  induction xs generalizing lastEnd with
  | nil => simp [StreamInOrder, lastEndAfter]
  | cons x xs ih => simp [StreamInOrder, lastEndAfter, ih, and_assoc]

/-! ### One payload byte -/

/-- A payload byte before the last is buffered, and nothing else but `last_end` changes. -/
theorem feedOne_data {s : State} {x : TimestampedByte} {e : BitVec 9} (ha : Accepts s x) (hst : s.state = .readData)
    (he : s.expectedLength = some e) (he256 : e.toNat ≤ 256) (hl : s.buf.length + 1 < e.toNat) :
    feedOne x s = .next { s with buf := s.buf ++ [x], lastEnd := some x.stop } := by
  have hd : decodeElement s.decodeCtx s.state x = .ok (.feedData x) := hst ▸ decodeElement_data x he hl
  have hop : opData x s = .ok ({ s with buf := s.buf ++ [x] }, []) := by
    simp [opData, append_ok x (show s.buf.length < 256 by omega), bind, Except.bind, pure, Except.pure]
  rw [feedOne_of_decode hd]
  exact (runElement_ok ha hop).trans (by simp [State.emit])

/-- The byte that fills the frame completes it: the frame reset, and the records of frame processing as one batch. -/
theorem feedOne_dataLast {s : State} {x : TimestampedByte} {e : BitVec 9} {out : List Annotation} (ha : Accepts s x)
    (hst : s.state = .readData) (he : s.expectedLength = some e) (he256 : e.toNat ≤ 256)
    (hl : s.buf.length + 1 = e.toNat) (hp : processFrame s.cfg s.frameType (s.buf ++ [x]) = .ok out) :
    feedOne x s = .next ({ s.frameReset with lastEnd := some x.stop }.emit out) := by
  have hd : decodeElement s.decodeCtx s.state x = .ok (.feedDataLast x) := hst ▸ decodeElement_dataLast x he hl
  rw [feedOne_of_decode hd]
  exact runElement_ok ha (opDataLast_of (by omega) hp)

/-- Frame processing ends its batch with a record (43_trailer.md R101: End). -/
theorem processFrame_ne_nil {cfg : ProtocolVariant} {ft : Option FrameType} {buf : List TimestampedByte}
    {out : List Annotation} (h : processFrame cfg ft buf = .ok out) : out ≠ [] := by
  obtain ⟨-, -, body, k, rfl, -⟩ := processFrame_cases h
  simp [closingRecords]

/-- Under the invariant the byte that fills the frame finds all that frame processing reads, so it completes the frame. -/
theorem feedOne_completes {s : State} {x : TimestampedByte} {e : BitVec 9} (h : Inv s) (ha : Accepts s x)
    (hst : s.state = .readData) (he : s.expectedLength = some e) (hl : s.buf.length + 1 = e.toNat) :
    ∃ front last, processFrame s.cfg s.frameType (s.buf ++ [x]) = .ok (front ++ [last]) ∧
      feedOne x s = .next ({ s.frameReset with lastEnd := some x.stop }.emit (front ++ [last])) := by
  obtain ⟨-, out, -, -, hp⟩ := inv_lastByte_processes h ha.2.1 x hst he hl
  obtain ⟨front, last, rfl⟩ := (List.eq_nil_or_concat' out).resolve_left (processFrame_ne_nil hp)
  exact ⟨front, last, hp, feedOne_dataLast ha hst he (h.2.expectedRange e he).2 hl hp⟩

/-! ### The payload of a frame -/

/-- Payload bytes that leave the frame unfinished are buffered in their order, whatever their values. -/
theorem feedAll_data {s : State} {e : BitVec 9} {xs : List TimestampedByte} (hf : s.fault = none)
    (hr : s.refused.config = false) (hst : s.state = .readData) (he : s.expectedLength = some e) (he256 : e.toNat ≤ 256)
    (hl : s.buf.length + xs.length < e.toNat) (hx : StreamInOrder s.lastEnd xs) :
    feedAll xs s = .next { s with buf := s.buf ++ xs, lastEnd := lastEndAfter s.lastEnd xs } := by
  induction xs generalizing s with
  | nil => simp [feedAll, lastEndAfter]
  | cons x xs ih =>
    obtain ⟨hspan, horder, hrest⟩ := hx
    rw [List.length_cons] at hl
    have hone := feedOne_data ⟨hf, hr, hspan, horder⟩ hst he he256 (by omega)
    have hmore := ih (s := { s with buf := s.buf ++ [x], lastEnd := some x.stop }) hf hr hst he (by simp; omega) hrest
    rw [feedAll_cons xs hone, hmore]
    simp [lastEndAfter]

/-- Settles O57: the bytes before the last are buffered (`feedAll_data`), and the last completes the frame in a state that meets
the invariant still. -/
theorem frameTakesItsLength : Obligations.FrameTakesItsLength := by
  intro s e xs hinv hf hr hst hb he hlen hx
  have buffered : ∀ ys zs, xs = ys ++ zs → ys.length < xs.length →
      feedAll ys s = .next { s with buf := ys, lastEnd := lastEndAfter s.lastEnd ys } := by
    intro ys zs hxs hl
    rw [hxs, streamInOrder_append] at hx
    simpa [hb] using feedAll_data hf hr hst he (hinv.2.expectedRange e he).2 (by simpa [hb, ← hlen] using hl) hx.1
  constructor
  · intro k hk
    exact ⟨_, buffered (xs.take k) (xs.drop k) (by simp) (by simpa using hk), hst, rfl, hf, rfl⟩
  · have hne : xs ≠ [] := List.ne_nil_of_length_pos (hlen ▸ Nat.zero_lt_of_lt (hinv.1.bufBelowExpected hst e he))
    obtain ⟨ys, x, rfl⟩ := (List.eq_nil_or_concat' xs).resolve_left hne
    have hys := buffered ys [x] rfl (by simp)
    obtain ⟨-, hspan, horder, -⟩ := (streamInOrder_append _ _ _).1 hx
    obtain ⟨front, last, hp, hlast⟩ := feedOne_completes (inv_feedAll hinv hys) ⟨hf, hr, hspan, horder⟩ hst he
      (by simpa using hlen)
    exact ⟨_, front, last, (feedAll_append [x] hys).trans ((feedAll_one x _).trans hlast), rfl, rfl, hf, hp,
      by simp [markLast_append]⟩

end Sys2Proof.Machine
end

/-! What the block does with the host's move where it waits or hands over a record (30_encoding.md R58, R59). -/

section
namespace Sys2Proof.Machine

theorem step_of_no_move {s : State} (h : nextMove s.inReady s.host = none) : step s = .next s := by
  simp only [step, nextTurn, h]

/-- Settles O28: an empty list has no move, and neither has a list of elements that `in_ready` 0 holds. -/
theorem blockWaitsWithStateKept : Obligations.BlockWaitsWithStateKept := by
  refine fun s => ⟨fun hh => step_of_no_move (by rw [hh]; rfl), fun held hh hq => step_of_no_move ?_⟩
  rw [hh, (inReady_eq_false s).2 hq]
  exact nextMove_feeds held

/-- The take move is made ahead of the elements that are held. -/
theorem step_of_take {s : State} {held : List TimestampedByte} {rest : List HostMove}
    (hh : s.host = held.map .feed ++ .take :: rest) (hheld : held = [] ∨ s.outQueue ≠ []) :
    step s = .next ({ s with host := held.map .feed ++ rest } : State).takeRecord := by
  have hm : nextMove s.inReady s.host = some (.take, held.map .feed ++ rest) := by
    rw [hh]
    exact nextMove_held held (by simpa using hheld) rfl
  simp only [step, nextTurn, hm]

/-- Whatever the depth of the FIFO, `out_valid` is 1 where a record is on its way out. -/
theorem outValid_eq (s : State) : s.outValid = !s.outQueue.isEmpty := by
  cases h : s.outQueue <;> simp [State.outValid, State.fifo, Config.outFifoDepth, h]

theorem takeRecord_of_cons {s : State} {r : OutRecord} {more : List OutRecord} (h : s.outQueue = r :: more) :
    s.takeRecord = { s with outQueue := more, taken := s.taken ++ [r] } := by
  simp [State.takeRecord, outPort_eq_head, h]

theorem takeRecord_of_nil {s : State} (h : s.outQueue = []) : s.takeRecord = s := by
  simp [State.takeRecord, outPort_eq_head, h]

/-- Settles O29: the take move is made (`step_of_take`), and the transfer it is hands over the head of the queue or nothing. -/
theorem takeTransfersOldestRecord : Obligations.TakeTransfersOldestRecord := by
  intro s held rest hh
  constructor
  · intro r more hq
    have htake := step_of_take hh (.inr (by simp [hq]))
    exact ⟨by simp [outPort_eq_head, hq], by simp [outValid_eq, hq], htake.trans (congrArg _ (takeRecord_of_cons hq))⟩
  · rintro hq rfl
    have htake := step_of_take hh (.inl rfl)
    exact ⟨by simp [outValid_eq, hq], htake.trans (congrArg _ (takeRecord_of_nil hq))⟩

end Sys2Proof.Machine
end

/-! The codes and label texts of the tags (30_encoding.md R53 to R55). -/

section
namespace Sys2Proof.Machine

/-- Settles O60: `label` and `Tag.code` row by row. -/
theorem labelTexts : Obligations.LabelTexts := fun _ _ =>
  ⟨rfl, rfl, rfl, rfl, rfl, rfl, rfl, rfl, rfl, rfl, rfl, rfl, rfl, rfl, rfl, rfl, rfl, rfl, rfl, rfl⟩

end Sys2Proof.Machine
end

/-! The framing operations of 40_framing.md R62 to R71: the word that selects each, and its next state. -/

section
namespace Sys2Proof.Machine

/-! ### The word that selects an operation -/

/-- In the state of its row, an operation whose conditions hold is the one selected, and the word has the bits of the row. -/
theorem word_selects {s : State} {x : TimestampedByte} {i : Instr} {st : FsmState} {m k : BitVec 11}
    (hrow : Laws.RowMatch.Statement i) (hst : s.state = st)
    (he : encode i = .word (inputWord st x.value) x.start x.stop) (hr : i.row = some (m, k)) (hw : i.wf = true)
    (hs : s.decodeCtx.selects i = true) :
    inputWord s.state x.value &&& k = m ∧ decode s.decodeCtx (s.fetchWord x) = .ok i := by
  subst hst
  constructor
  · obtain ⟨m', k', hr', hm⟩ := hrow hw _ _ _ he
    cases hr.symm.trans hr'
    exact hm
  · have hd := decodeOfEncodeIsTheInstruction s.decodeCtx i hw hs
    rwa [he] at hd

/-- A row that fixes the byte too fixes the whole word. -/
theorem word_selects_fixed {s : State} {x : TimestampedByte} {i : Instr} {st : FsmState} {m : BitVec 11}
    (hrow : Laws.RowMatch.Statement i) (hst : s.state = st)
    (he : encode i = .word (inputWord st x.value) x.start x.stop) (hr : i.row = some (m, 0x7FF)) (hw : i.wf = true)
    (hs : s.decodeCtx.selects i = true) :
    inputWord s.state x.value = m ∧ decode s.decodeCtx (s.fetchWord x) = .ok i := by
  obtain ⟨hm, hd⟩ := word_selects hrow hst he hr hw hs
  exact ⟨BitVec.and_allOnes.symm.trans hm, hd⟩

/-- `Step` on an element runs the operation its word selects. -/
theorem feedOne_of_selected {s : State} {x : TimestampedByte} {i : Instr}
    (h : decode s.decodeCtx (s.fetchWord x) = .ok i) : feedOne x s = exec i s :=
  feedOne_of_decode ((decode_fetchWord s x).symm.trans h)

/-! ### The effect of an accepted element -/

@[simp] theorem State.emit_nil (s : State) : s.emit [] = s := by
  simp [State.emit]

/-- An operation with no record in its batch. -/
theorem runElement_silent {s t : State} {x : TimestampedByte} {op : State → OpResult} (ha : Accepts s x)
    (hop : op s = .ok (t, [])) : runElement x op s = .next { t with lastEnd := some x.stop } := by
  rw [runElement_ok ha hop, State.emit_nil]

/-- A header byte's batch at the output port. -/
theorem markLast_headerByte (s : State) (tag : Tag) (v : BitVec 11) (x : TimestampedByte) :
    markLast (headerByte s tag v x) = if s.cfg.headerMerge then [] else [⟨⟨tag, 0, v, x.start, x.stop⟩, true⟩] := by
  unfold headerByte
  split <;> rfl

theorem opData_of {s : State} (x : TimestampedByte) (hl : s.buf.length < 256) :
    opData x s = .ok ({ s with buf := s.buf ++ [x] }, []) := by
  simp [opData, append_ok x hl, bind, Except.bind, pure, Except.pure]

/-- A frame with a type, which for CONTROL is a frame of at least three bytes, gives a batch, and End is its final record. -/
theorem processFrame_gives (cfg : ProtocolVariant) {ft : FrameType} {buf : List TimestampedByte} (hne : 1 ≤ buf.length)
    (hc : ft = .control → 3 ≤ buf.length) :
    ∃ front last, processFrame cfg (some ft) buf = .ok (front ++ [last]) := by
  have hgives : ∃ out, processFrame cfg (some ft) buf = .ok out := by
    by_cases hft : ft = .control
    · subst hft
      obtain ⟨b0, f, r, k, h0, hf, hr, hk⟩ := trailerBytes_exist (hc rfl)
      exact ⟨_, processFrame_control (hc rfl) h0 hf hr hk⟩
    · exact ⟨_, processFrame_other (k := buf[buf.length - 1]) hft hne (by simp)⟩
  obtain ⟨out, hout⟩ := hgives
  obtain ⟨front, last, rfl⟩ := (List.eq_nil_or_concat' out).resolve_left (processFrame_ne_nil hout)
  exact ⟨front, last, hout⟩

/-! ### WAIT_FOR_FIRST_BYTE -/

/-- Settles O1: the word is the row's own, and the step procedure runs the pseudocode of R62. -/
theorem sentinelStartsFrame : Obligations.SentinelStartsFrame := by
  refine fun s x => ⟨fun hst hx => ?word, fun ha => ?effect⟩
  case word => exact word_selects_fixed (Laws.RowMatch.feedSentinel x) hst rfl rfl (by simp [Instr.wf, hx]) rfl
  case effect => exact (runElement_ok (op := opSentinel x) ha rfl).trans (by simp [State.emit, markLast_headerByte])

/-- Settles O2: the word is the row's own, and the operation has no record. -/
theorem uplinkStartEntersBranch : Obligations.UplinkStartEntersBranch := by
  refine fun s x => ⟨fun hst hx => ?word, fun ha => ?effect⟩
  case word => exact word_selects_fixed (Laws.RowMatch.feedUplinkStart x) hst rfl rfl (by simp [Instr.wf, hx]) rfl
  case effect => exact runElement_silent (op := opUplinkStart) ha rfl

/-- Settles O3: a byte that is neither of the two special ones selects the operation that writes nothing. -/
theorem idleByteIsIgnored : Obligations.IdleByteIsIgnored := by
  refine fun s x => ⟨fun hst hSentinel hUplink => ?word, fun ha => ?effect⟩
  case word =>
    exact word_selects (Laws.RowMatch.feedIdle x) hst rfl rfl (by simpa [Instr.wf] using ⟨hSentinel, hUplink⟩) rfl
  case effect => exact runElement_silent (op := opIdle) ha rfl

/-! ### WAIT_FOR_LEN -/

/-- Settles O4: `expected_length` is 9 bits wide, so L + 1 does not wrap. -/
theorem validLengthIsAccepted : Obligations.ValidLengthIsAccepted := by
  refine fun s x => ⟨fun hst hmin => ?word, fun ha => ⟨expectedLengthOf x.value, expectedLengthOf_toNat _, ?effect⟩⟩
  case word => exact word_selects (Laws.RowMatch.feedLenOk x) hst rfl rfl rfl (decide_eq_true hmin)
  case effect =>
    have hv : lenShown x.value = BitVec.ofNat 11 x.value.toNat := (BitVec.ofNat_toNat 11 x.value).symm
    exact (runElement_ok (op := opLenOk x) ha rfl).trans (by simp [State.emit, markLast_headerByte, hv])

/-- Settles O5: the frame reset overwrites the length just set. -/
theorem shortLengthAbandonsFrame : Obligations.ShortLengthAbandonsFrame := by
  refine fun s x => ⟨fun hst hmin => ?word, fun ha => ?effect⟩
  case word => exact word_selects (Laws.RowMatch.feedLenBad x) hst rfl rfl rfl (decide_eq_true hmin)
  case effect => exact runElement_silent (op := opLenBad x) ha rfl

/-! ### WAIT_FOR_TYPE -/

/-- The effect the three type bytes share, with a header not merged. -/
theorem runElement_opType_own {s : State} {x : TimestampedByte} (ft : FrameType) (own merged : Tag) (ha : Accepts s x)
    (he : s.expectedLength ≠ none) (hm : s.cfg.headerMerge = false) :
    runElement x (opType ft own merged x) s = .next
      { s with
        frameType := some ft
        state := .readData
        lastEnd := some x.stop
        outQueue := s.outQueue ++ [⟨⟨own, 0, 0, x.start, x.stop⟩, true⟩] } :=
  runElement_ok ha (opType_own ft own merged x he hm)

/-- The effect the three type bytes share, with a merged header. -/
theorem runElement_opType_merged {s : State} {x : TimestampedByte} {t0 : Time} (ft : FrameType) (own merged : Tag)
    (ha : Accepts s x) (he : s.expectedLength ≠ none) (hm : s.cfg.headerMerge = true) (ht : s.headerStartTime = some t0) :
    runElement x (opType ft own merged x) s = .next
      { s with
        frameType := some ft
        state := .readData
        lastEnd := some x.stop
        outQueue := s.outQueue ++ [⟨⟨merged, 0, 0, t0, x.stop⟩, true⟩] } :=
  runElement_ok ha (opType_merged ft own merged x he hm ht)

/-- Settles O6, from the effect the three type bytes share. -/
theorem controlTypeByte : Obligations.ControlTypeByte := by
  refine fun s x => ⟨fun hst hx => ?word, runElement_opType_own _ _ _, fun _ => runElement_opType_merged _ _ _⟩
  exact word_selects_fixed (Laws.RowMatch.feedTypeCtrl x) hst rfl rfl (by simp [Instr.wf, hx]) rfl

/-- Settles O7, from the effect the three type bytes share. -/
theorem downlinkTypeByte : Obligations.DownlinkTypeByte := by
  refine fun s x => ⟨fun hst hx => ?word, runElement_opType_own _ _ _, fun _ => runElement_opType_merged _ _ _⟩
  exact word_selects_fixed (Laws.RowMatch.feedTypeDl x) hst rfl rfl (by simp [Instr.wf, hx]) rfl

/-- Settles O8, from the effect the three type bytes share. -/
theorem unknownTypeByte : Obligations.UnknownTypeByte := by
  refine fun s x =>
    ⟨fun hst hControl hDownlink => ?word, runElement_opType_own _ _ _, fun _ => runElement_opType_merged _ _ _⟩
  exact word_selects (Laws.RowMatch.feedTypeUnk x) hst rfl rfl (by simpa [Instr.wf] using ⟨hControl, hDownlink⟩) rfl

/-! ### READ_DATA -/

/-- Settles O9: Decode finds the count below the length expected, and the append finds its free entry. -/
theorem payloadByteIsAppended : Obligations.PayloadByteIsAppended := by
  refine fun s x => ⟨fun e hst he hl => ?word, fun ha hl => ?effect⟩
  case word =>
    exact word_selects (Laws.RowMatch.feedData x) hst rfl rfl rfl
      ((Option.any_eq_true _ _).2 ⟨e, he, decide_eq_true hl⟩)
  case effect => exact runElement_silent ha (opData_of x hl)

/-- Settles O10: frame processing gives a batch that ends in a record, and marking its last record leaves 0 on the others. -/
theorem lastPayloadByteCompletesFrame : Obligations.LastPayloadByteCompletesFrame := by
  refine fun s x => ⟨fun e hst he hl => ?word, fun ft ha hl hft hc => ?effect⟩
  case word =>
    exact word_selects (Laws.RowMatch.feedDataLast x) hst rfl rfl rfl
      ((Option.any_eq_true _ _).2 ⟨e, he, decide_eq_true hl⟩)
  case effect =>
    obtain ⟨front, last, hp⟩ := processFrame_gives s.cfg (ft := ft) (buf := s.buf ++ [x]) (by simp)
      (fun h => by simpa [State.bufLen] using hc h)
    refine ⟨front, last, hp, (runElement_ok ha (opDataLast_of hl (hft ▸ hp))).trans ?_⟩
    simp [State.emit, State.frameReset, markLast_append]

/-! ### A halted block -/

/-- Settles O16: every FEED operation runs in the step procedure, whose first check this is. -/
theorem haltedBlockTakesNoStep : Obligations.HaltedBlockTakesNoStep := by
  intro s h
  have hh : s.halted = true := (halted_iff s).2 h
  constructor
  · intro x
    obtain ⟨op, hop, -⟩ := feedOne_cases s x
    exact hop.trans (runElement_halted x op hh)
  · intro i hi
    exact (exec_feed hi s).trans (runElement_halted _ _ hh)

end Sys2Proof.Machine
end

/-! The header of one frame (40_framing.md R74) and resynchronisation (40_framing.md R72). -/

section
namespace Sys2Proof.Machine

/-! ### One header byte -/

/-- The sentinel. -/
theorem feedOne_sentinel {s : State} {x : TimestampedByte} (ha : Accepts s x) (hst : s.state = .waitForFirstByte)
    (hx : x.value = 0x7E) :
    feedOne x s = .next
      { s with
        headerStartTime := some x.start
        state := .waitForLen
        lastEnd := some x.stop
        outQueue := s.outQueue ++
          if s.cfg.headerMerge then [] else [⟨⟨.head, 0, 0, x.start, x.stop⟩, true⟩] } := by
  obtain ⟨hsel, heff⟩ := sentinelStartsFrame s x
  exact (feedOne_of_selected (hsel hst hx).2).trans (heff ha)

/-- A length byte at or above the minimum. -/
theorem feedOne_lenOk {s : State} {x : TimestampedByte} (ha : Accepts s x) (hst : s.state = .waitForLen)
    (hmin : s.cfg.minValidPayloadLen.toNat ≤ x.value.toNat + 1) :
    feedOne x s = .next
      { s with
        expectedLength := some (expectedLengthOf x.value)
        buf := []
        state := .waitForType
        lastEnd := some x.stop
        outQueue := s.outQueue ++
          if s.cfg.headerMerge then []
          else [⟨⟨.len, 0, BitVec.ofNat 11 x.value.toNat, x.start, x.stop⟩, true⟩] } := by
  obtain ⟨hsel, heff⟩ := validLengthIsAccepted s x
  obtain ⟨e, he, hexec⟩ := heff ha
  obtain rfl : e = expectedLengthOf x.value := BitVec.eq_of_toNat_eq (he.trans (expectedLengthOf_toNat _).symm)
  exact (feedOne_of_selected (hsel hst hmin).2).trans hexec

/-- A length byte below the minimum. -/
theorem feedOne_lenBad {s : State} {x : TimestampedByte} (ha : Accepts s x) (hst : s.state = .waitForLen)
    (hmin : x.value.toNat + 1 < s.cfg.minValidPayloadLen.toNat) :
    feedOne x s = .next { s.frameReset with lastEnd := some x.stop } := by
  obtain ⟨hsel, heff⟩ := shortLengthAbandonsFrame s x
  exact (feedOne_of_selected (hsel hst hmin).2).trans (heff ha)

/-- Settles O25: the two lengths are on either side of the threshold. -/
theorem lengthThresholdIsExact : Obligations.LengthThresholdIsExact := by
  refine fun s x ha hst _ => ⟨fun hbelow => ?oneBelow, fun hat => ?atMinimum⟩
  case oneBelow => exact ⟨_, feedOne_lenBad ha hst (by omega), rfl, rfl, rfl⟩
  case atMinimum => exact ⟨_, feedOne_lenOk ha hst hat.ge, rfl, _, rfl, (expectedLengthOf_toNat _).trans hat⟩

/-- The tag of a type byte's own record (40_framing.md R67 to R69, variant FIXED). -/
def FrameType.ownTag : FrameType → Tag
  | .control => .typeControl
  | .downlinkData => .typeDownlink
  | .unknown => .typeUnknown

/-- The tag of the record of a merged header (40_framing.md R67 to R69, variant MEASURED). -/
def FrameType.startTag : FrameType → Tag
  | .control => .startControl
  | .downlinkData => .startDownlink
  | .unknown => .startUnknown

/-- In WAIT_FOR_TYPE the byte's classification is the frame type, and picks the tags (30_encoding.md R48). -/
theorem feedOne_type {s : State} (x : TimestampedByte) (hst : s.state = .waitForType) :
    feedOne x s = runElement x
      (opType (classify x.value) (classify x.value).ownTag (classify x.value).startTag x) s := by
  by_cases hControl : x.value = 0x00
  · rw [show classify x.value = .control from if_pos hControl]
    exact feedOne_of_selected ((controlTypeByte s x).1 hst hControl).2
  · by_cases hDownlink : x.value = 0x01
    · rw [show classify x.value = .downlinkData from (if_neg hControl).trans (if_pos hDownlink)]
      exact feedOne_of_selected ((downlinkTypeByte s x).1 hst hDownlink).2
    · rw [show classify x.value = .unknown from (if_neg hControl).trans (if_neg hDownlink)]
      exact feedOne_of_selected ((unknownTypeByte s x).1 hst hControl hDownlink).2

/-- Under the invariant the type byte starts the payload, whatever record it emits. -/
theorem feedOne_type_next {s : State} {x : TimestampedByte} (h : Inv s) (ha : Accepts s x) (hst : s.state = .waitForType) :
    ∃ queue, feedOne x s = .next
      { s with
        frameType := some (classify x.value)
        state := .readData
        lastEnd := some x.stop
        outQueue := queue } := by
  obtain ⟨u, out, hop⟩ := inv_opType_ok h hst (classify x.value) _ _ x
  obtain ⟨-, rfl, -⟩ := opType_eq_ok hop
  exact ⟨_, (feedOne_type x hst).trans (runElement_ok ha hop)⟩

/-! ### The header of one frame -/

/-- Settles O56: the effect of each byte in turn; the two forms of header differ in the type byte's record. -/
theorem headerRecordsPerVariant : Obligations.HeaderRecordsPerVariant := by
  intro s x l y hf hr hst hord hx hmin
  obtain ⟨hxSpan, hxOrder, hlSpan, hlOrder, hySpan, hyOrder, -⟩ := hord
  have hSentinel := feedOne_sentinel ⟨hf, hr, hxSpan, hxOrder⟩ hst hx
  have hHeader := (feedAll_cons [l, y] hSentinel).trans
    (feedAll_cons [y] (feedOne_lenOk ⟨hf, hr, hlSpan, hlOrder⟩ rfl hmin))
  rw [hHeader, feedAll_one, feedOne_type y rfl]
  cases hm : s.cfg.headerMerge with
  | false =>
    exact ⟨_, runElement_opType_own _ _ _ ⟨hf, hr, hySpan, hyOrder⟩ (Option.some_ne_none _) hm, rfl, rfl,
      by cases classify y.value <;> simp [FrameType.ownTag]⟩
  | true =>
    exact ⟨_, runElement_opType_merged _ _ _ ⟨hf, hr, hySpan, hyOrder⟩ (Option.some_ne_none _) hm rfl, rfl, rfl,
      by cases classify y.value <;> simp [FrameType.startTag]⟩

/-! ### Resynchronisation -/

/-- How many more bytes can be taken, at most, before the block is back in WAIT_FOR_FIRST_BYTE (outside the uplink branch). -/
def State.bytesToGo (s : State) : Nat :=
  match s.state with
  | .waitForLen => 258
  | .waitForType => 257
  | .readData => s.expectedLength.elim 0 BitVec.toNat - s.bufLen
  | _ => 0

theorem bytesToGo_firstByte {s : State} (hst : s.state = .waitForFirstByte) : s.bytesToGo = 0 := by
  simp [State.bytesToGo, hst]

theorem bytesToGo_len {s : State} (hst : s.state = .waitForLen) : s.bytesToGo = 258 := by
  simp [State.bytesToGo, hst]

theorem bytesToGo_type {s : State} (hst : s.state = .waitForType) : s.bytesToGo = 257 := by
  simp [State.bytesToGo, hst]

theorem bytesToGo_data {s : State} {e : BitVec 9} (hst : s.state = .readData) (he : s.expectedLength = some e) :
    s.bytesToGo = e.toNat - s.buf.length := by
  simp [State.bytesToGo, hst, he, State.bufLen]

/-- The length READ_DATA counts to: the buffer has not reached it, and it is at most 256. -/
theorem inv_expectedLength {s : State} (h : Inv s) (hst : s.state = .readData) :
    ∃ e, s.expectedLength = some e ∧ s.buf.length < e.toNat ∧ e.toNat ≤ 256 := by
  obtain ⟨e, he⟩ := Option.isSome_iff_exists.1 (h.1.expectedPresent.2 (.inr hst))
  exact ⟨e, he, h.1.bufBelowExpected hst e he, (h.2.expectedRange e he).2⟩

/-- A frame is not ended without a byte, and takes at most 258. -/
theorem bytesToGo_bounds {s : State} (h : Inv s) (hin : InFrame s.state) : 0 < s.bytesToGo ∧ s.bytesToGo ≤ 258 := by
  obtain hst | hst | hst := hin
  · simp [bytesToGo_len hst]
  · simp [bytesToGo_type hst]
  · obtain ⟨e, he, hbelow, h256⟩ := inv_expectedLength h hst
    rw [bytesToGo_data hst he]
    omega

/-- A block that takes steps and is in a frame or between frames. -/
structure Framing (s : State) : Prop where
  inv : Inv s
  noFault : s.fault = none
  notRefused : s.refused.config = false
  place : s.state = .waitForFirstByte ∨ InFrame s.state

/-- Every byte of a frame brings its end nearer. -/
theorem feedOne_bytesToGo_lt {s : State} {x : TimestampedByte} (h : Framing s) (hin : InFrame s.state) (ha : Accepts s x) :
    ∃ t, feedOne x s = .next t ∧ Framing t ∧ t.lastEnd = some x.stop ∧ t.bytesToGo < s.bytesToGo := by
  obtain ⟨hinv, hf, hr, -⟩ := h
  have hpos := (bytesToGo_bounds hinv hin).1
  obtain hst | hst | hst := hin
  case inl =>
    obtain hmin | hmin := Nat.lt_or_ge (x.value.toNat + 1) s.cfg.minValidPayloadLen.toNat
    · have hone := feedOne_lenBad ha hst hmin
      exact ⟨_, hone, ⟨inv_feedOne hinv hone, hf, hr, .inl rfl⟩, rfl, by rwa [bytesToGo_firstByte rfl]⟩
    · have hone := feedOne_lenOk ha hst hmin
      exact ⟨_, hone, ⟨inv_feedOne hinv hone, hf, hr, .inr (.inr (.inl rfl))⟩, rfl,
        by simp [bytesToGo_len hst, bytesToGo_type]⟩
  case inr.inl =>
    obtain ⟨queue, hone⟩ := feedOne_type_next hinv ha hst
    have ht := inv_feedOne hinv hone
    obtain ⟨e, he, -, h256⟩ := inv_expectedLength ht rfl
    refine ⟨_, hone, ⟨ht, hf, hr, .inr (.inr (.inr rfl))⟩, rfl, ?_⟩
    rw [bytesToGo_type hst, bytesToGo_data rfl he]
    omega
  case inr.inr =>
    obtain ⟨e, he, hbelow, h256⟩ := inv_expectedLength hinv hst
    obtain hl | hl : s.buf.length + 1 < e.toNat ∨ s.buf.length + 1 = e.toNat := by omega
    · have hone := feedOne_data ha hst he h256 hl
      refine ⟨_, hone, ⟨inv_feedOne hinv hone, hf, hr, .inr (.inr (.inr hst))⟩, rfl, ?_⟩
      rw [bytesToGo_data hst he]
      refine lt_of_eq_of_lt (bytesToGo_data hst he) ?_
      rw [List.length_append, List.length_singleton]
      omega
    · obtain ⟨front, last, -, hone⟩ := feedOne_completes hinv ha hst he hl
      exact ⟨_, hone, ⟨inv_feedOne hinv hone, hf, hr, .inl rfl⟩, rfl, by rwa [bytesToGo_firstByte rfl]⟩

/-- A stream with as many bytes as are to go ends the frame, if not before its end. -/
theorem feedAll_leavesFrame {s : State} {xs : List TimestampedByte} (h : Framing s) (hx : StreamInOrder s.lastEnd xs)
    (hl : s.bytesToGo ≤ xs.length) :
    ∃ k t, k ≤ xs.length ∧ feedAll (xs.take k) s = .next t ∧ t.state = .waitForFirstByte ∧ t.fault = none := by
  induction xs generalizing s with
  | nil =>
    have hout : ¬ InFrame s.state := fun hin => Nat.not_le.2 (bytesToGo_bounds h.inv hin).1 hl
    exact ⟨0, s, le_rfl, rfl, h.place.resolve_right hout, h.noFault⟩
  | cons x xs ih =>
    obtain hst | hin := h.place
    · exact ⟨0, s, Nat.zero_le _, rfl, hst, h.noFault⟩
    · obtain ⟨hspan, horder, hrest⟩ := hx
      obtain ⟨t, hone, ht, hlast, hgo⟩ := feedOne_bytesToGo_lt h hin ⟨h.noFault, h.notRefused, hspan, horder⟩
      rw [List.length_cons] at hl
      obtain ⟨k, u, hk, hu⟩ := ih ht (by rwa [hlast]) (by omega)
      exact ⟨k + 1, u, by simpa using hk, by rwa [List.take_succ_cons, feedAll_cons _ hone]⟩

/-- Outside the uplink branch a block that meets the invariant is in a frame or between frames (10_state.md R16). -/
theorem place_of_notUplink {s : State} (h : Inv s) (hType : s.state ≠ .waitForUplinkType)
    (hData : s.state ≠ .waitForUplinkData) : s.state = .waitForFirstByte ∨ InFrame s.state := by
  obtain ⟨h6, h7⟩ := h.2.notReserved
  cases hst : s.state with
  | waitForFirstByte => exact .inl rfl
  | waitForLen => exact .inr (.inl rfl)
  | waitForType => exact .inr (.inr (.inl rfl))
  | readData => exact .inr (.inr (.inr rfl))
  | waitForUplinkType => exact absurd hst hType
  | waitForUplinkData => exact absurd hst hData
  | reserved6 => exact absurd hst h6
  | reserved7 => exact absurd hst h7

/-- Settles O58: outside the uplink branch at most 258 bytes are to go, and every byte of a frame brings its end nearer. -/
theorem resynchronisesWithin258Bytes : Obligations.ResynchronisesWithin258Bytes := by
  intro s xs hinv hf hr hType hData hlen hx
  have hplace := place_of_notUplink hinv hType hData
  have hl : s.bytesToGo ≤ 258 :=
    hplace.elim (fun hst => by simp [bytesToGo_firstByte hst]) (fun hin => (bytesToGo_bounds hinv hin).2)
  simpa only [hlen] using feedAll_leavesFrame ⟨hinv, hf, hr, hplace⟩ hx (hlen ▸ hl)

end Sys2Proof.Machine
end

/-! The unpacker (41_unpacker.md): the range of the channel count, the bits of a channel, and the loop of R83 against the
bitstream of R82. -/

section
namespace Sys2Proof.Machine

/-! ### The channel count -/

@[simp] theorem usableBytes_fixed (a : MinLenAssign) (p : Nat) : usableBytes (variantRecord a .fixed) p = p - 3 := rfl

@[simp] theorem usableBytes_measured (a : MinLenAssign) (p : Nat) : usableBytes (variantRecord a .measured) p = p := rfl

/-- The channels fit in the usable bytes, and fewer than 11 bits are left over. -/
theorem channelCount_bounds (u : Nat) : 11 * channelCount u ≤ 8 * u ∧ 8 * u < 11 * channelCount u + 11 := by
  unfold channelCount
  omega

/-- Settles O42: 11 C is at most 8 U and within 11 of it, and U is P - 3 or P. -/
theorem channelCountRange : Obligations.ChannelCountRange := by
  intro a v p hmin hmax u
  have h9 : 9 ≤ p := (minLen_ge a v).trans hmin
  have hc := channelCount_bounds u
  cases v with
  | fixed =>
    have hu : u = p - 3 := usableBytes_fixed a p
    simp only [reduceCtorEq, forall_const, IsEmpty.forall_iff, and_true, true_and]
    omega
  | measured =>
    have hu : u = p := usableBytes_measured a p
    simp only [reduceCtorEq, forall_const, IsEmpty.forall_iff, true_and]
    omega

/-! ### Channels as bits and as packed values -/

/-- Settles O46: both the channel and the byte show the stream's bit `11(i-1)+j`. -/
theorem channelBitsComeFromTheirBytes : Obligations.ChannelBitsComeFromTheirBytes := by
  intro buf i j b _ hj hb
  rw [channelValue_getLsbD buf i hj, stream_testBit, hb, Option.any_some]

/-- The digit `i` of base 2048 is among the low `n` digits. -/
theorem digit_mod_two_pow (s : Nat) {i n : Nat} (h : i < n) :
    s % 2 ^ (11 * n) / 2 ^ (11 * i) % 2048 = s / 2 ^ (11 * i) % 2048 := by
  obtain ⟨k, rfl⟩ := Nat.exists_eq_add_of_lt h
  rw [show 11 * (i + k + 1) = 11 * i + (11 * k + 11) by ring, Nat.pow_add, Nat.mod_mul_right_div_self, Nat.pow_add]
  exact Nat.mod_mod_of_dvd _ (Dvd.intro_left _ rfl)

/-- Settles O45: channel i + 1 is digit i of the stream in base 2048, which is digit i of the packed values. -/
theorem packedValuesUnpack : Obligations.PackedValuesUnpack := by
  intro buf vals _ hs
  refine List.ext_getElem (channelValues_length _ _) fun i _ hi => BitVec.eq_of_toNat_eq ?_
  calc (channelValues buf vals.length)[i].toNat
      = stream buf / 2 ^ (11 * i) % 2048 := by simp [channelValues, channelValue_toNat]
    _ = packed vals / 2 ^ (11 * i) % 2048 := by rw [← hs, digit_mod_two_pow _ hi]
    _ = vals[i].toNat := packed_div_mod vals i hi

/-! ### The loop's registers -/

/-- What the working registers hold after the bytes `p` (41_unpacker.md R83, R84): the channels produced are those of the
bitstream, and the accumulator is what remains of the stream above them. -/
structure Unpacked (p : List TimestampedByte) (u : Unpacker) : Prop where
  bits : 11 * u.count.toNat + u.bits.toNat = 8 * p.length
  value : u.value.toNat = stream p / 2 ^ (11 * u.count.toNat)
  channels : u.channels = channelValues p u.count.toNat

theorem unpacked_start : Unpacked [] unpackerStart := ⟨rfl, rfl, rfl⟩

/-- The accumulator holds only the bits not consumed. -/
theorem Unpacked.value_lt {p : List TimestampedByte} {u : Unpacker} (h : Unpacked p u) : u.value.toNat < 2 ^ u.bits.toNat := by
  rw [h.value]
  apply Nat.div_lt_of_lt_mul
  rw [← Nat.pow_add, h.bits]
  exact stream_lt p

theorem Unpacked.after_shiftIn {p : List TimestampedByte} {u : Unpacker} (h : Unpacked p u) (hb : u.bits.toNat ≤ 10)
    (b : TimestampedByte) : Unpacked (p ++ [b]) (shiftIn u b.value) where
  bits := by
    have := h.bits
    rw [shiftIn_bits hb, List.length_append, List.length_singleton]
    show 11 * u.count.toNat + _ = _
    omega
  value := by
    rw [shiftIn_value hb h.value_lt, stream_append, ← h.bits, Nat.pow_add, h.value, Nat.mul_left_comm]
    exact (Nat.add_mul_div_left _ _ (by positivity)).symm
  channels := by
    have := h.bits
    rw [channelValues_append b (by show 11 * u.count.toNat ≤ _; omega)]
    exact h.channels

/-- The low 11 bits of the accumulator are the next channel. -/
theorem Unpacked.extract {p : List TimestampedByte} {u : Unpacker} (h : Unpacked p u) :
    u.value.extractLsb' 0 11 = channelValue p (u.count.toNat + 1) := by
  apply BitVec.eq_of_toNat_eq
  rw [channelValue_toNat, Nat.add_sub_cancel, ← h.value]
  simp

theorem shiftOut_of_lt {u : Unpacker} (h : u.bits.toNat < 11) : shiftOut u = u := if_neg (Nat.not_le.2 h)

theorem shiftOut_of_le {u : Unpacker} (h : 11 ≤ u.bits.toNat) :
    shiftOut u = ⟨u.value >>> 11, u.bits - 11, u.count + 1, u.channels ++ [u.value.extractLsb' 0 11]⟩ := if_pos h

theorem shiftOut_bits {u : Unpacker} (h : 11 ≤ u.bits.toNat) : (shiftOut u).bits.toNat = u.bits.toNat - 11 := by
  rw [shiftOut_of_le h]
  exact BitVec.toNat_sub_of_le h

theorem shiftOut_count {u : Unpacker} (h : 11 ≤ u.bits.toNat) (hc : u.count.toNat < 255) :
    (shiftOut u).count.toNat = u.count.toNat + 1 := by
  rw [shiftOut_of_le h]
  exact BitVec.toNat_add_of_lt (by simpa using Nat.succ_lt_succ hc)

theorem shiftOut_bits_le {u : Unpacker} (h : u.bits.toNat ≤ 18) : (shiftOut u).bits.toNat ≤ 10 := by
  obtain hlt | hle := Nat.lt_or_ge u.bits.toNat 11
  · rw [shiftOut_of_lt hlt]
    omega
  · rw [shiftOut_bits hle]
    omega

theorem shiftOut_count_le {u : Unpacker} (hc : u.count.toNat < 255) : (shiftOut u).count.toNat ≤ u.count.toNat + 1 := by
  obtain hlt | hle := Nat.lt_or_ge u.bits.toNat 11
  · rw [shiftOut_of_lt hlt]
    omega
  · exact (shiftOut_count hle hc).le

theorem Unpacked.after_shiftOut {p : List TimestampedByte} {u : Unpacker} (h : Unpacked p u) (hc : u.count.toNat < 255) :
    Unpacked p (shiftOut u) := by
  obtain hlt | hle := Nat.lt_or_ge u.bits.toNat 11
  · rwa [shiftOut_of_lt hlt]
  · have hcount := shiftOut_count hle hc
    constructor
    case bits =>
      have := h.bits
      rw [hcount, shiftOut_bits hle]
      omega
    case value =>
      rw [hcount, Nat.mul_succ, Nat.pow_add, ← Nat.div_div_eq_div_mul, ← h.value, shiftOut_of_le hle]
      simp [Nat.shiftRight_eq_div_pow]
    case channels =>
      rw [hcount, channelValues_succ, ← h.channels, ← h.extract, shiftOut_of_le hle]

/-! ### The loop -/

/-- The loop ends having consumed the bytes `q`: all of them, or as many of the first as gave `c` channels. -/
theorem unpackLoop_unpacked {c : Nat} (hc : c ≤ 186) (rest : List TimestampedByte) {p : List TimestampedByte} {u : Unpacker}
    (h : Unpacked p u) (hb : u.bits.toNat ≤ 10) (hu : u.count.toNat ≤ c) :
    ∃ q, q <+: p ++ rest ∧ Unpacked q (unpackLoop c u rest) ∧ (unpackLoop c u rest).bits.toNat ≤ 10 ∧
      (unpackLoop c u rest).count.toNat ≤ c ∧ ((unpackLoop c u rest).count.toNat = c ∨ q = p ++ rest) := by
  induction rest generalizing p u with
  | nil => exact ⟨p, ⟨[], rfl⟩, h, hb, hu, .inr (List.append_nil p).symm⟩
  | cons b rest ih =>
    rw [unpackLoop]
    split
    case isTrue hdone => exact ⟨p, ⟨b :: rest, rfl⟩, h, hb, hu, .inl hdone⟩
    case isFalse hmore =>
      have hin : (shiftIn u b.value).count.toNat < c := Nat.lt_of_le_of_ne hu hmore
      have hin255 : (shiftIn u b.value).count.toNat < 255 := by omega
      have hbits : (shiftIn u b.value).bits.toNat ≤ 18 := by rw [shiftIn_bits hb]; omega
      rw [List.append_cons]
      exact ih ((h.after_shiftIn hb b).after_shiftOut hin255) (shiftOut_bits_le hbits) ((shiftOut_count_le hin255).trans hin)

/-- Settles O44: what the loop holds at its end leaves room for one more byte in each register. -/
theorem unpackerRegistersHold : Obligations.UnpackerRegistersHold := by
  intro buf c b hc
  obtain ⟨q, -, hq, hbits, -, -⟩ := unpackLoop_unpacked hc buf unpacked_start (Nat.zero_le 10) (Nat.zero_le c)
  refine ⟨hbits, hq.value_lt, ?_, shiftIn_bits hbits b, shiftIn_value hbits hq.value_lt b⟩
  rw [hq.channels, channelValues_length]

/-- Channels that lie in the first bytes do not see those that follow. -/
theorem channelValues_append_list {p : List TimestampedByte} (rest : List TimestampedByte) {c : Nat}
    (hc : 11 * c ≤ 8 * p.length) : channelValues (p ++ rest) c = channelValues p c := by
  apply List.map_congr_left
  intro j hj
  have := List.mem_range.1 hj
  rw [← channelValue_take (buf := p ++ rest) (n := p.length) (by omega) (by omega), List.take_left]

/-- Settles O43: fewer than 11 bits are held at the end, so a loop that consumed every byte has produced `c` channels too. -/
theorem loopUnpacksTheBitstream : Obligations.LoopUnpacksTheBitstream := by
  intro buf c hbuf hc
  obtain ⟨q, ⟨rest, hrest⟩, hq, hbits, hle, hend⟩ := unpackLoop_unpacked hc buf unpacked_start (Nat.zero_le 10) (Nat.zero_le c)
  have hheld := hq.bits
  have hcount : (unpackLoop c unpackerStart buf).count.toNat = c := by
    obtain hdone | hall := hend
    · exact hdone
    · rw [hall, List.nil_append] at hheld
      omega
  rw [hcount] at hheld
  calc (unpackLoop c unpackerStart buf).channels
      = channelValues q c := by rw [hq.channels, hcount]
    _ = channelValues (q ++ rest) c := (channelValues_append_list rest (by omega)).symm
    _ = channelValues buf c := by rw [hrest, List.nil_append]

end Sys2Proof.Machine
end

/-! The bit time, and the spans and the order of a completed frame's records (42_time.md R89 to R91, R93 to R95, R97, R98). -/

section
namespace Sys2Proof.Machine

/-! ### The bit time -/

@[simp] theorem bitTime_fixed (a : MinLenAssign) (b0 : TimestampedByte) :
    bitTime (variantRecord a .fixed).bitDuration b0 = 1 / 115200 := rfl

@[simp] theorem bitTime_measured (a : MinLenAssign) (b0 : TimestampedByte) :
    bitTime (variantRecord a .measured).bitDuration b0 = (b0.stop - b0.start) / 10 := rfl

/-- For a byte that takes time, a bit takes time. -/
theorem bitTime_pos (a : MinLenAssign) (v : Variant) {b0 : TimestampedByte} (h : b0.start < b0.stop) :
    0 < bitTime (variantRecord a v).bitDuration b0 := by
  cases v with
  | fixed => rw [bitTime_fixed]; norm_num
  | measured => rw [bitTime_measured]; exact div_pos (sub_pos.2 h) (by norm_num)

theorem halfBit_pos {bd : Time} (h : 0 < bd) : 0 < halfBit bd := half_pos h

/-- Settles O47: each strategy by its definition, and both are positive for a byte that takes time. -/
theorem bitTimeByVariant : Obligations.BitTimeByVariant := fun a b0 =>
  ⟨bitTime_fixed a b0, by rw [bitTime_measured]; exact div_mul_cancel₀ _ (by norm_num), fun v => bitTime_pos a v⟩

/-! ### Channel spans -/

/-- A channel ends where the next one starts. -/
theorem channelStop_eq (t0 bd : Time) (i : Nat) : channelStop t0 bd i = channelStart t0 bd (i + 1) := by
  simp [channelStop, channelStart]

theorem channelStart_strictMono (t0 : Time) {bd : Time} (h : 0 < bd) : StrictMono (channelStart t0 bd) := by
  refine strictMono_nat_of_lt_succ fun i => ?_
  rw [← channelStop_eq, channelStop, channelStart]
  linarith

/-- A channel is 11 bit times long. -/
theorem channelRecord_positive (buf : List TimestampedByte) (t0 : Time) {bd : Time} (h : 0 < bd) (i : Nat) :
    (channelRecord buf t0 bd i).Positive :=
  (channelStart_strictMono t0 h i.lt_succ_self).trans_eq (channelStop_eq t0 bd i).symm

theorem channelRecords_positive (buf : List TimestampedByte) (t0 : Time) {bd : Time} (h : 0 < bd) (c : Nat) :
    ∀ x ∈ channelRecords buf t0 bd c, x.Positive := by
  simp [channelRecords, channelRecord_positive buf t0 h]

theorem channelRecords_getElem? {buf : List TimestampedByte} {t0 bd : Time} {c i : Nat} {x : Annotation}
    (h : (channelRecords buf t0 bd c)[i]? = some x) : x = channelRecord buf t0 bd (i + 1) := by
  simp only [channelRecords, List.getElem?_map, Option.map_eq_some_iff, List.getElem?_eq_some_iff, List.getElem_range] at h
  obtain ⟨-, ⟨-, rfl⟩, rfl⟩ := h
  rfl

/-- A channel ends no later than any later channel starts. -/
theorem channelRecords_disjoint (buf : List TimestampedByte) (t0 : Time) {bd : Time} (h : 0 < bd) (c : Nat) :
    (channelRecords buf t0 bd c).Pairwise fun x y => x.stop ≤ y.start := by
  refine List.pairwise_map.2 (List.pairwise_lt_range.imp fun {i j} hij => ?_)
  exact (channelStop_eq t0 bd (i + 1)).trans_le ((channelStart_strictMono t0 h).monotone (by omega))

/-- Settles O48: a channel ends where the next one starts, and channel starts increase. -/
theorem channelSpansAreContiguous : Obligations.ChannelSpansAreContiguous := by
  intro buf t0 bd c hbd
  refine ⟨fun i x y hx hy => ?_, channelRecords_disjoint buf t0 hbd c, channelRecords_positive buf t0 hbd c⟩
  obtain rfl := channelRecords_getElem? hx
  obtain rfl := channelRecords_getElem? hy
  exact channelStop_eq t0 bd (i + 1)

/-! ### The closing records -/

/-- The CRC record, whichever it is, and End span the last buffered byte. -/
theorem closingRecords_spans (cfg : ProtocolVariant) (k : TimestampedByte) :
    ∃ crc, closingRecords cfg k = [crc, ⟨.finish, 0, 0, k.start, k.stop⟩] ∧ crc.start = k.start ∧ crc.stop = k.stop := by
  unfold closingRecords
  split <;> exact ⟨_, rfl, rfl, rfl⟩

/-- Settles O39: the closing records end the batch of every completed frame. -/
theorem endSpansLastByte : Obligations.EndSpansLastByte := by
  intro cfg ft buf out k hp hk
  obtain ⟨-, -, body, k', rfl, hk', -⟩ := processFrame_cases hp
  rw [List.getLast?_eq_getElem?, hk'] at hk
  cases hk
  obtain ⟨crc, hclosing, hcrc⟩ := closingRecords_spans cfg k
  rw [hclosing]
  refine ⟨by simp, crc, ?_, hcrc⟩
  simp [List.dropLast_append_of_ne_nil]

/-! ### The order of start times -/

theorem startTimesInOrder_iff_isChain (out : List Annotation) :
    StartTimesInOrder out ↔ (out.map Annotation.start).IsChain (· ≤ ·) := by
  rw [List.isChain_iff_pairwise, List.pairwise_map, StartTimesInOrder]

/-- Two batches in order make one in order exactly when the first's last record does not start after the second's first. -/
theorem startTimesInOrder_append {front back : List Annotation} {x y : Annotation} (hfront : StartTimesInOrder front)
    (hback : StartTimesInOrder back) (hx : front.getLast? = some x) (hy : back.head? = some y) :
    StartTimesInOrder (front ++ back) ↔ x.start ≤ y.start := by
  rw [startTimesInOrder_iff_isChain] at hfront hback ⊢
  simp [List.isChain_append, hfront, hback, hx, hy]

/-- The channels by themselves are in order. -/
theorem startTimesInOrder_channelRecords (buf : List TimestampedByte) (t0 : Time) {bd : Time} (h : 0 < bd) (c : Nat) :
    StartTimesInOrder (channelRecords buf t0 bd c) :=
  List.pairwise_map.2 (List.pairwise_lt_range.imp fun hij =>
    (channelStart_strictMono t0 h).monotone (Nat.succ_le_succ hij.le))

theorem channelRecords_getLast? (buf : List TimestampedByte) (t0 bd : Time) {c : Nat} (hc : 0 < c) :
    (channelRecords buf t0 bd c).getLast? = some (channelRecord buf t0 bd c) := by
  obtain ⟨n, rfl⟩ := Nat.exists_eq_succ_of_ne_zero hc.ne'
  simp [channelRecords, List.range_succ]

/-- A byte ends no later than any byte behind it starts. -/
theorem BytesInOrder.stop_le_start {buf : List TimestampedByte} (h : BytesInOrder buf) {i j : Nat} {b c : TimestampedByte}
    (hij : i < j) (hb : buf[i]? = some b) (hc : buf[j]? = some c) : b.stop ≤ c.start := by
  obtain ⟨hi, rfl⟩ := List.getElem?_eq_some_iff.1 hb
  obtain ⟨hj, rfl⟩ := List.getElem?_eq_some_iff.1 hc
  exact List.pairwise_iff_getElem.1 h.2 i j hi hj hij

theorem BytesInOrder.start_lt_stop {buf : List TimestampedByte} (h : BytesInOrder buf) {i : Nat} {b : TimestampedByte}
    (hb : buf[i]? = some b) : b.start < b.stop :=
  h.1 b (List.mem_of_getElem? hb)

/-- The edges of the fine trailer spans go back from the flags byte's end (42_time.md R93). -/
theorem fineEdge_strictAnti (fStop : Time) {h : Time} (hh : 0 < h) : StrictAnti (fineEdge fStop h) :=
  strictAnti_nat_of_succ_lt fun k => by
    rw [fineEdge, fineEdge]
    push_cast
    linarith

theorem fineEdge_zero (fStop h : Time) : fineEdge fStop h 0 = fStop := by
  simp [fineEdge]

/-- The start of the first trailer record (42_time.md R93, R94). -/
def trailerStart (layout : TrailerLayout) (f : TimestampedByte) (h : Time) : Time :=
  match layout with
  | .fine => fineEdge f.stop h 4
  | .coarse => f.start

theorem trailerRecords_head? (layout : TrailerLayout) (f r : TimestampedByte) (h : Time) :
    ∃ y, (trailerRecords layout f r h).head? = some y ∧ y.start = trailerStart layout f h := by
  cases layout <;> exact ⟨_, rfl, rfl⟩

theorem trailerRecords_getLast? (layout : TrailerLayout) (f r : TimestampedByte) (h : Time) :
    ∃ y, (trailerRecords layout f r h).getLast? = some y ∧ y.start = r.start := by
  cases layout <;> exact ⟨_, rfl, rfl⟩

theorem startTimesInOrder_trailerRecords (layout : TrailerLayout) {f r : TimestampedByte} {h : Time} (hh : 0 < h)
    (hf : f.start < f.stop) (hfr : f.stop ≤ r.start) : StartTimesInOrder (trailerRecords layout f r h) := by
  rw [startTimesInOrder_iff_isChain]
  cases layout with
  | fine =>
    have hlast : fineEdge f.stop h 1 ≤ r.start :=
      ((fineEdge_strictAnti f.stop hh).antitone (Nat.zero_le 1)).trans ((fineEdge_zero f.stop h).trans_le hfr)
    simp [trailerRecords, fineTrailer, annotation, (fineEdge_strictAnti f.stop hh).le_iff_ge, hlast]
  | coarse => simpa [trailerRecords, coarseTrailer, annotation] using hf.le.trans hfr

/-- The records behind the channels are in order, because their bytes are. -/
theorem startTimesInOrder_behindChannels (cfg : ProtocolVariant) {f r k : TimestampedByte} {h : Time} (hh : 0 < h)
    (hf : f.start < f.stop) (hfr : f.stop ≤ r.start) (hrk : r.start ≤ k.start) :
    StartTimesInOrder (trailerRecords cfg.trailerLayout f r h ++ closingRecords cfg k) := by
  obtain ⟨crc, hclosing, hcrc, -⟩ := closingRecords_spans cfg k
  obtain ⟨last, hlast, hrssi⟩ := trailerRecords_getLast? cfg.trailerLayout f r h
  rw [hclosing]
  refine (startTimesInOrder_append (startTimesInOrder_trailerRecords _ hh hf hfr) ?_ hlast rfl).2 ?_
  · simp [StartTimesInOrder, hcrc]
  · rwa [hrssi, hcrc]

/-- The batch of a CONTROL frame with a channel: all that can be out of order is the last channel and the first trailer record. -/
theorem startTimesInOrder_controlBatch (cfg : ProtocolVariant) (buf : List TimestampedByte) (t0 : Time) {bd : Time} {c : Nat}
    {f r k : TimestampedByte} (hbd : 0 < bd) (hc : 0 < c) (hf : f.start < f.stop) (hfr : f.stop ≤ r.start)
    (hrk : r.start ≤ k.start) :
    StartTimesInOrder
        (channelRecords buf t0 bd c ++ trailerRecords cfg.trailerLayout f r (halfBit bd) ++ closingRecords cfg k) ↔
      channelStart t0 bd c ≤ trailerStart cfg.trailerLayout f (halfBit bd) := by
  obtain ⟨first, hhead, hfirst⟩ := trailerRecords_head? cfg.trailerLayout f r (halfBit bd)
  rw [List.append_assoc, ← hfirst]
  exact startTimesInOrder_append (startTimesInOrder_channelRecords buf t0 hbd c)
    (startTimesInOrder_behindChannels cfg (halfBit_pos hbd) hf hfr hrk) (channelRecords_getLast? buf t0 bd hc)
    (by simp [hhead])

/-- A frame of 9 bytes or more has a channel. -/
theorem channelCount_pos (a : MinLenAssign) (v : Variant) {p : Nat} (h : 9 ≤ p) :
    0 < channelCount (usableBytes (variantRecord a v) p) := by
  have hbounds := channelCount_bounds (usableBytes (variantRecord a v) p)
  cases v with
  | fixed => rw [usableBytes_fixed] at hbounds ⊢; omega
  | measured => rw [usableBytes_measured] at hbounds ⊢; omega

/-- Settles O49, from the order of the batch's records: under the input contract a bit takes time and the trailer bytes are in
order. -/
theorem startOrderCondition : Obligations.StartOrderCondition := by
  intro a v buf out b0 f hbuf hlen h0 hf hp
  obtain ⟨-, -, r, k, -, -, hr, hk⟩ := trailerBytes_exist (buf := buf) (by omega)
  cases (processFrame_control (by omega) h0 hf hr hk).symm.trans hp
  have hbatch := startTimesInOrder_controlBatch (variantRecord a v) buf b0.start
    (bitTime_pos a v (hbuf.start_lt_stop h0)) (channelCount_pos a v hlen) (hbuf.start_lt_stop hf)
    (hbuf.stop_le_start (by omega) hf hr) ((hbuf.start_lt_stop hr).le.trans (hbuf.stop_le_start (by omega) hr hk))
  cases v with
  | fixed => simpa [trailerStart, fineEdge, halfBit, variantRecord] using hbatch
  | measured => simpa [trailerStart, variantRecord] using hbatch

end Sys2Proof.Machine
end

/-! Positive spans (42_time.md R96): of a completed frame's records, of every operation's batch, and of the output after every
step. -/

section
namespace Sys2Proof.Machine

/-! ### A completed frame's records -/

/-- Each span of the fine trailer is half a bit time long. -/
theorem trailerRecords_positive (layout : TrailerLayout) {f r : TimestampedByte} {h : Time} (hh : 0 < h)
    (hf : f.start < f.stop) (hr : r.start < r.stop) : ∀ y ∈ trailerRecords layout f r h, y.Positive := by
  cases layout with
  | fine =>
    have hedge := fineEdge_strictAnti f.stop hh
    have hlast : fineEdge f.stop h 1 < f.stop := (hedge Nat.one_pos).trans_eq (fineEdge_zero f.stop h)
    simp [trailerRecords, fineTrailer, annotation, Annotation.Positive, hedge.lt_iff_gt, hlast, hr]
  | coarse => simp [trailerRecords, coarseTrailer, annotation, Annotation.Positive, hf, hr]

theorem closingRecords_positive (cfg : ProtocolVariant) {k : TimestampedByte} (hk : k.start < k.stop) :
    ∀ y ∈ closingRecords cfg k, y.Positive := by
  obtain ⟨crc, hclosing, hstart, hstop⟩ := closingRecords_spans cfg k
  simp [hclosing, Annotation.Positive, hstart, hstop, hk]

/-- The records only a CONTROL frame has are made of bytes of its buffer. -/
theorem controlRecords_eq_ok {cfg : ProtocolVariant} {buf : List TimestampedByte} {body : List Annotation}
    (h : controlRecords cfg buf = .ok body) :
    ∃ b0 ∈ buf, ∃ f ∈ buf, ∃ r ∈ buf, body =
      channelRecords buf b0.start (bitTime cfg.bitDuration b0) (channelCount (usableBytes cfg buf.length)) ++
        trailerRecords cfg.trailerLayout f r (halfBit (bitTime cfg.bitDuration b0)) := by
  obtain hshort | hlen := Nat.lt_or_ge buf.length 3
  · simp [controlRecords, bufEnd_absent hshort, bind, Except.bind] at h
  · obtain ⟨b0, f, r, -, h0, hf, hr, -⟩ := trailerBytes_exist hlen
    cases (controlRecords_eq hlen h0 hf hr).symm.trans h
    exact ⟨b0, List.mem_of_getElem? h0, f, List.mem_of_getElem? hf, r, List.mem_of_getElem? hr, rfl⟩

/-- Under an admitted configuration, bytes that take time give records that do. -/
theorem processFrame_positive {cfg : ProtocolVariant} {ft : Option FrameType} {buf : List TimestampedByte}
    {out : List Annotation} (hcfg : admitted cfg = true) (hbuf : ∀ b ∈ buf, b.start < b.stop)
    (h : processFrame cfg ft buf = .ok out) : ∀ y ∈ out, y.Positive := by
  obtain ⟨v, rfl⟩ := (admitted_iff cfg).1 hcfg
  obtain ⟨t, -, body, k, rfl, hk, -, hcontrol, hother⟩ := processFrame_cases h
  refine List.forall_mem_append.2 ⟨?_, closingRecords_positive _ (hbuf k (List.mem_of_getElem? hk))⟩
  by_cases ht : t = .control
  · obtain ⟨b0, h0, f, hf, r, hr, rfl⟩ := controlRecords_eq_ok (hcontrol ht)
    have hbd := bitTime_pos Config.minLenAssign v (hbuf b0 h0)
    exact List.forall_mem_append.2 ⟨channelRecords_positive buf b0.start hbd _,
      trailerRecords_positive _ (halfBit_pos hbd) (hbuf f hf) (hbuf r hr)⟩
  · simp [hother ht]

/-! ### One operation -/

/-- The times an operation leaves in the session: buffered bytes it found or its own element, and a header start it found or its
element's. -/
theorem feedOp_times {i : Instr} {s u : State} {out : List Annotation} (h : feedOp i s = .ok (u, out)) :
    u.buf.Sublist (s.buf ++ [feedElement i]) ∧
      ∀ t, u.headerStartTime = some t → s.headerStartTime = some t ∨ t = (feedElement i).start := by
  cases i with
  | feedSentinel x => cases h; simp [feedElement, eq_comm]
  | feedTypeCtrl x | feedTypeDl x | feedTypeUnk x =>
    obtain ⟨-, rfl, -⟩ := opType_eq_ok h
    exact ⟨List.sublist_append_left .., fun _ => .inl⟩
  | feedData x =>
    obtain ⟨-, rfl, -⟩ := opData_eq_ok h
    exact ⟨List.Sublist.refl _, fun _ => .inl⟩
  | feedDataLast x =>
    obtain ⟨-, rfl, -⟩ := opDataLast_eq_ok h
    simp
  | _ => cases h <;> simp +contextual

theorem headerByte_positive (s : State) (tag : Tag) (v : BitVec 11) {x : TimestampedByte} (hx : x.start < x.stop) :
    ∀ y ∈ headerByte s tag v x, y.Positive := by
  unfold headerByte
  split <;> simp [annotation, Annotation.Positive, hx]

/-- The header's start lies before every element accepted after it. -/
theorem TimeInv.header_before {s : State} {x : TimestampedByte} (h : TimeInv s) (ha : Accepts s x) {t : Time}
    (ht : s.headerStartTime = some t) : t < x.start := by
  obtain ⟨e, he, hte⟩ := h.headerBeforeLast t ht
  exact hte.trans_le (ha.2.2.2 e he)

/-- Every buffered byte ends before every element accepted after it starts. -/
theorem TimeInv.byte_before {s : State} {x b : TimestampedByte} (h : TimeInv s) (ha : Accepts s x) (hb : b ∈ s.buf) :
    b.stop ≤ x.start := by
  obtain ⟨e, he, hbe⟩ := h.bytesBeforeLast b hb
  exact hbe.trans (ha.2.2.2 e he)

/-- With the element accepted behind them, the buffered bytes are still in order. -/
theorem TimeInv.bytesInOrder_concat {s : State} {x : TimestampedByte} (h : TimeInv s) (ha : Accepts s x) :
    BytesInOrder (s.buf ++ [x]) :=
  ⟨List.forall_mem_append.2 ⟨h.bytesInOrder.1, by simpa using ha.2.2.1⟩,
    List.pairwise_append.2 ⟨h.bytesInOrder.2, List.pairwise_singleton .., by simpa using fun b => h.byte_before ha⟩⟩

/-- Every operation's batch has positive spans: those of the element, of the merged header up to it, and of a completed frame. -/
theorem feedOp_batch_positive {i : Instr} {s u : State} {out : List Annotation} (hinv : Inv s) (htime : TimeInv s)
    (ha : Accepts s (feedElement i)) (h : feedOp i s = .ok (u, out)) : ∀ y ∈ out, y.Positive := by
  obtain ⟨-, hr, hspan, -⟩ := id ha
  cases i with
  | feedSentinel x | feedLenOk x => cases h; exact headerByte_positive _ _ _ hspan
  | feedTypeCtrl x | feedTypeDl x | feedTypeUnk x =>
    obtain ⟨-, -, ⟨-, rfl⟩ | ⟨-, t0, ht0, rfl⟩⟩ := opType_eq_ok h
    · exact List.forall_mem_singleton.2 hspan
    · exact List.forall_mem_singleton.2 ((htime.header_before ha ht0).trans hspan)
  | feedData x => obtain ⟨-, -, rfl⟩ := opData_eq_ok h; simp
  | feedDataLast x =>
    obtain ⟨-, -, hp⟩ := opDataLast_eq_ok h
    exact processFrame_positive (hinv.2.configAdmitted hr) (htime.bytesInOrder_concat ha).1 hp
  | _ => cases h <;> simp

/-! ### The step -/

/-- Everything one element can bring about: nothing, a fault, or the effect of an operation on that element. -/
theorem feedOne_next {s t : State} {x : TimestampedByte} (h : feedOne x s = .next t) :
    t = s ∨ (∃ k, t = s.raiseFault k) ∨
      ∃ i u out, feedElement i = x ∧ Accepts s x ∧ feedOp i s = .ok (u, out) ∧
        t = { u with lastEnd := some x.stop }.emit out := by
  obtain ⟨op, hop, hcases⟩ := feedOne_cases s x
  obtain ⟨-, rfl⟩ | ⟨-, hk⟩ | ⟨ha, u, out, ho, ht⟩ := runElement_next (hop.symm.trans h)
  · exact .inl rfl
  · exact .inr (.inl hk)
  · have hi : ∃ i, feedElement i = x ∧ feedOp i s = .ok (u, out) := by
      obtain ⟨-, -, rfl⟩ | ⟨-, -, rfl⟩ | ⟨-, -, -, rfl⟩ | ⟨-, -, rfl⟩ | ⟨-, -, rfl⟩ | ⟨-, -, rfl⟩ | ⟨-, -, rfl⟩ |
        ⟨-, -, -, rfl⟩ | ⟨-, -, rfl⟩ | ⟨-, -, rfl⟩ | ⟨-, -, rfl⟩ | ⟨-, -, rfl⟩ | ⟨-, rfl⟩ | ⟨-, rfl⟩ | ⟨-, rfl⟩ := hcases
      · exact ⟨.feedSentinel x, rfl, ho⟩
      · exact ⟨.feedUplinkStart x, rfl, ho⟩
      · exact ⟨.feedIdle x, rfl, ho⟩
      · exact ⟨.feedLenOk x, rfl, ho⟩
      · exact ⟨.feedLenBad x, rfl, ho⟩
      · exact ⟨.feedTypeCtrl x, rfl, ho⟩
      · exact ⟨.feedTypeDl x, rfl, ho⟩
      · exact ⟨.feedTypeUnk x, rfl, ho⟩
      · cases ho
      · exact ⟨.feedData x, rfl, ho⟩
      · exact ⟨.feedDataLast x, rfl, ho⟩
      · exact ⟨.feedIllegal .readData x, rfl, ho⟩
      · exact ⟨.feedUplType x, rfl, ho⟩
      · exact ⟨.feedUplData x, rfl, ho⟩
      · exact ⟨.feedIllegal s.state x, rfl, ho⟩
    obtain ⟨i, hx, ho⟩ := hi
    exact .inr (.inr ⟨i, u, out, hx, ha, ho, ht⟩)

/-- `TimeInv` reads three things of a state. -/
theorem timeInv_congr {s t : State} (h : TimeInv s) (hb : t.buf = s.buf) (hh : t.headerStartTime = s.headerStartTime)
    (hl : t.lastEnd = s.lastEnd) : TimeInv t :=
  ⟨hb ▸ h.bytesInOrder, by simpa [hb, hl] using h.bytesBeforeLast, by simpa [hh, hl] using h.headerBeforeLast⟩

/-- An accepted element becomes the last one consumed: the times the session keeps, and the element's own, lie before its end. -/
theorem timeInv_consume {s t : State} {x : TimestampedByte} (h : TimeInv s) (ha : Accepts s x)
    (hb : t.buf.Sublist (s.buf ++ [x]))
    (hh : ∀ t0, t.headerStartTime = some t0 → s.headerStartTime = some t0 ∨ t0 = x.start)
    (hl : t.lastEnd = some x.stop) : TimeInv t where
  bytesInOrder := by
    obtain ⟨hspan, hpair⟩ := h.bytesInOrder_concat ha
    exact ⟨fun b hmem => hspan b (hb.subset hmem), hpair.sublist hb⟩
  bytesBeforeLast b hmem := by
    refine ⟨x.stop, hl, ?_⟩
    obtain hold | rfl : b ∈ s.buf ∨ b = x := by simpa using hb.subset hmem
    · exact (h.byte_before ha hold).trans ha.2.2.1.le
    · exact le_rfl
  headerBeforeLast t0 ht := by
    refine ⟨x.stop, hl, ?_⟩
    obtain hold | rfl := hh t0 ht
    · exact (h.header_before ha hold).trans ha.2.2.1
    · exact ha.2.2.1

/-- `OutputPositive` reads the records on their way out and the records taken. -/
theorem outputPositive_congr {s t : State} (h : OutputPositive s) (hq : t.outQueue = s.outQueue)
    (ht : t.taken = s.taken) : OutputPositive t := by
  simpa [OutputPositive, hq, ht] using h

/-- A batch of positive spans joins the records on their way out. -/
theorem outputPositive_emit {s : State} {out : List Annotation} (h : OutputPositive s) (hout : ∀ y ∈ out, y.Positive) :
    OutputPositive (s.emit out) :=
  ⟨List.forall_mem_append.2 ⟨h.1, fun r hr => hout r.record (mem_markLast hr)⟩, h.2⟩

/-- A transfer moves a record, and makes none. -/
theorem outputPositive_takeRecord {s : State} (h : OutputPositive s) : OutputPositive s.takeRecord := by
  obtain ⟨-, hs⟩ | ⟨r, more, hq, hs⟩ := takeRecord_cases s
  · rwa [hs]
  · obtain ⟨hqueue, htaken⟩ := h
    rw [hq, List.forall_mem_cons] at hqueue
    rw [hs]
    exact ⟨hqueue.2, List.forall_mem_append.2 ⟨htaken, by simpa using hqueue.1⟩⟩

/-- A reset drops the records on their way out and keeps those taken. -/
theorem outputPositive_blockReset {s : State} (h : OutputPositive s) (cfg : ProtocolVariant) :
    OutputPositive (s.blockReset cfg) :=
  ⟨by simp, h.2⟩

/-- One element keeps the times in order and the records positive. -/
theorem feedOne_keepsSpans {s t : State} {x : TimestampedByte} (hinv : Inv s) (htime : TimeInv s) (hout : OutputPositive s)
    (h : feedOne x s = .next t) : TimeInv t ∧ OutputPositive t := by
  obtain rfl | ⟨k, rfl⟩ | ⟨i, u, out, rfl, ha, ho, rfl⟩ := feedOne_next h
  · exact ⟨htime, hout⟩
  · exact ⟨timeInv_congr htime rfl rfl rfl, outputPositive_congr hout rfl rfl⟩
  · obtain ⟨hbuf, hheader⟩ := feedOp_times ho
    obtain ⟨-, htaken, -, hqueue, -⟩ := keepsOutside_feedOp i s u out ho
    exact ⟨timeInv_consume htime ha hbuf hheader rfl,
      outputPositive_emit (outputPositive_congr hout hqueue htaken) (feedOp_batch_positive hinv htime ha ho)⟩

/-- Settles O53, by the things a step can be (`step_cases`): an element consumed keeps both, a transfer moves a record, and a
reset leaves a session with no time in it. -/
theorem stepKeepsSpansPositive : Obligations.StepKeepsSpansPositive := by
  intro s t hinv htime hout ht
  have houtHost : ∀ rest, OutputPositive { s with host := rest } := fun _ => outputPositive_congr hout rfl rfl
  obtain hw | ⟨x, rest, -, -, hf⟩ | ⟨held, m, rest, -, -, hmove⟩ := step_cases s
  · cases hw.symm.trans ht
    exact ⟨htime, hout⟩
  · exact feedOne_keepsSpans (inv_setHost hinv rest) (timeInv_congr htime rfl rfl rfl) (houtHost rest) (hf.symm.trans ht)
  · obtain ⟨-, hs⟩ | ⟨v, -, hs⟩ | ⟨cfg, -, hs⟩ := hmove <;> cases hs.symm.trans ht
    · exact ⟨timeInv_congr htime (by simp) (by simp) (by simp), outputPositive_takeRecord (houtHost _)⟩
    · exact ⟨timeInv_of_emptySession rfl rfl, outputPositive_blockReset (houtHost _) _⟩
    · exact ⟨timeInv_of_emptySession rfl rfl, outputPositive_blockReset (houtHost _) _⟩

end Sys2Proof.Machine
end

/-! The records of a completed frame (43_trailer.md R101 to R104), their labels and their number (43_trailer.md R109), and what of
the payload they do not depend on (43_trailer.md R106, R107, R111). -/

section
namespace Sys2Proof.Machine

/-! ### The records of R101 -/

theorem byteShown_eq_ofNat (b : Byte) : byteShown b = BitVec.ofNat 11 b.toNat :=
  BitVec.eq_of_toNat_eq (by simp [byteShown])

/-- The CHANNEL record counted from 0, as the statements list the channels. -/
theorem channelRecord_succ (buf : List TimestampedByte) (t0 bd : Time) (j : Nat) :
    channelRecord buf t0 bd (j + 1) = ⟨.channel, BitVec.ofNat 8 (j + 1), channelValue buf (j + 1),
      t0 + 11 * (j : Time) * bd, t0 + 11 * ((j : Time) + 1) * bd⟩ := by
  simp [channelRecord, annotation, channelStart, channelStop]

/-- The four sub-spans of the flags byte, with its last half bit written without a factor. -/
theorem fineTrailer_eq (f r : TimestampedByte) (h : Time) :
    fineTrailer f r h =
      [⟨.failsafe, 0, bitShown f.value 3, f.stop - 4 * h, f.stop - 3 * h⟩,
       ⟨.lostFrame, 0, bitShown f.value 2, f.stop - 3 * h, f.stop - 2 * h⟩,
       ⟨.ch18, 0, bitShown f.value 1, f.stop - 2 * h, f.stop - h⟩,
       ⟨.ch17, 0, bitShown f.value 0, f.stop - h, f.stop⟩,
       ⟨.rssiVal, 0, byteShown r.value, r.start, r.stop⟩] := by
  simp [fineTrailer, annotation, fineEdge, flagFailsafe, flagLostFrame, flagCh18, flagCh17]

theorem closingRecords_fixed (a : MinLenAssign) (k : TimestampedByte) :
    closingRecords (variantRecord a .fixed) k =
      [⟨.crcVal, 0, byteShown k.value, k.start, k.stop⟩, ⟨.finish, 0, 0, k.start, k.stop⟩] := rfl

theorem closingRecords_measured (a : MinLenAssign) (k : TimestampedByte) :
    closingRecords (variantRecord a .measured) k =
      [⟨.crc, 0, 0, k.start, k.stop⟩, ⟨.finish, 0, 0, k.start, k.stop⟩] := rfl

/-- The batch of a CONTROL frame in variant FIXED. -/
theorem processFrame_fixed_control (a : MinLenAssign) {buf : List TimestampedByte} {b0 f r k : TimestampedByte}
    (h : 3 ≤ buf.length) (h0 : buf[0]? = some b0) (hf : buf[buf.length - 3]? = some f)
    (hr : buf[buf.length - 2]? = some r) (hk : buf[buf.length - 1]? = some k) :
    processFrame (variantRecord a .fixed) (some .control) buf = .ok
      (channelRecords buf b0.start (1 / 115200) (channelCount (buf.length - 3)) ++
        fineTrailer f r (halfBit (1 / 115200)) ++ closingRecords (variantRecord a .fixed) k) :=
  processFrame_control h h0 hf hr hk

/-- The batch of a CONTROL frame in variant MEASURED. -/
theorem processFrame_measured_control (a : MinLenAssign) {buf : List TimestampedByte} {b0 f r k : TimestampedByte}
    (h : 3 ≤ buf.length) (h0 : buf[0]? = some b0) (hf : buf[buf.length - 3]? = some f)
    (hr : buf[buf.length - 2]? = some r) (hk : buf[buf.length - 1]? = some k) :
    processFrame (variantRecord a .measured) (some .control) buf = .ok
      (channelRecords buf b0.start ((b0.stop - b0.start) / 10) (channelCount buf.length) ++
        coarseTrailer f r ++ closingRecords (variantRecord a .measured) k) :=
  processFrame_control h h0 hf hr hk

/-- Settles O35: a CONTROL frame has the channels and its variant's trailer ahead of the closing records, and any other frame the
closing records alone. -/
theorem completedFrameRecords : Obligations.CompletedFrameRecords := by
  intro a v ft buf b0 f r k hlen h0 hf hr hk
  by_cases hft : ft = .control
  · subst hft
    cases v with
    | fixed =>
      rw [processFrame_fixed_control a hlen h0 hf hr hk, fineTrailer_eq, closingRecords_fixed]
      simp [channelRecords, channelRecord_succ, channelCount, halfBit, bitShown, byteShown_eq_ofNat]
    | measured =>
      rw [processFrame_measured_control a hlen h0 hf hr hk, closingRecords_measured]
      simp [channelRecords, channelRecord_succ, channelCount, coarseTrailer, annotation]
  · rw [processFrame_other hft (by omega) hk]
    cases v with
    | fixed => simp [hft, closingRecords_fixed, byteShown_eq_ofNat]
    | measured => simp [hft, closingRecords_measured]

/-! ### Labels (43_trailer.md R102 to R104) -/

@[simp] theorem byteShown_toNat (b : Byte) : (byteShown b).toNat = b.toNat := by
  have := b.isLt
  simp [byteShown]
  omega

@[simp] theorem boolText_bitShown (b : Byte) (i : Nat) :
    boolText (bitShown b i) = if b.getLsbD i then "true" else "false" := by
  unfold boolText bitShown
  split <;> simp

/-- The labels of the channels: a channel's number fits the 8 bits of `n`. -/
theorem labels_channelRecords (buf : List TimestampedByte) (t0 bd : Time) {c : Nat} (hc : c < 256) :
    (channelRecords buf t0 bd c).map (fun x => label x.tag x.n x.v) =
      (List.range c).map fun j => "ch" ++ Nat.repr (j + 1) ++ ":" ++ Nat.repr (channelValue buf (j + 1)).toNat := by
  rw [channelRecords, List.map_map]
  refine List.map_congr_left fun j hj => ?_
  have hj : j + 1 < 2 ^ 8 := by
    have := List.mem_range.1 hj
    omega
  simp only [Function.comp_apply, channelRecord_succ, label, dec, BitVec.toNat_ofNat, Nat.mod_eq_of_lt hj]

theorem labels_fineTrailer (f r : TimestampedByte) (h : Time) :
    (fineTrailer f r h).map (fun x => label x.tag x.n x.v) =
      ["failsafe:" ++ (if f.value.getLsbD 3 then "true" else "false"),
       "lost frame:" ++ (if f.value.getLsbD 2 then "true" else "false"),
       "ch18:" ++ (if f.value.getLsbD 1 then "true" else "false"),
       "ch17:" ++ (if f.value.getLsbD 0 then "true" else "false"),
       "RSSI:" ++ Nat.repr r.value.toNat] := by
  simp only [fineTrailer_eq, List.map_cons, List.map_nil, label, boolText_bitShown, dec, byteShown_toNat]

theorem labels_closingRecords_fixed (a : MinLenAssign) (k : TimestampedByte) :
    (closingRecords (variantRecord a .fixed) k).map (fun x => label x.tag x.n x.v) =
      ["CRC:" ++ Nat.repr k.value.toNat, "End"] := by
  simp only [closingRecords_fixed, List.map_cons, List.map_nil, label, dec, byteShown_toNat]

theorem labels_closingRecords_measured (a : MinLenAssign) (k : TimestampedByte) :
    (closingRecords (variantRecord a .measured) k).map (fun x => label x.tag x.n x.v) = ["CRC", "End"] := rfl

/-- Settles O36, part by part of the batch. -/
theorem fixedControlFrameLabels : Obligations.FixedControlFrameLabels := by
  intro a buf f r k hlen hmax hf hr hk
  obtain ⟨b0, -, -, -, h0, -⟩ := trailerBytes_exist hlen
  have hc : channelCount (buf.length - 3) < 256 := by
    unfold channelCount
    omega
  refine ⟨_, processFrame_fixed_control a hlen h0 hf hr hk, ?_, ?_⟩
  · simp [fineTrailer, channelCount]
  · rw [List.map_append, List.map_append, labels_channelRecords _ _ _ hc, labels_fineTrailer, labels_closingRecords_fixed,
      List.append_assoc]
    rfl

/-- Settles O37, part by part of the batch. -/
theorem measuredControlFrameLabels : Obligations.MeasuredControlFrameLabels := by
  intro a buf hlen hmax
  obtain ⟨b0, f, r, k, h0, hf, hr, hk⟩ := trailerBytes_exist hlen
  have hc : channelCount buf.length < 256 := by
    unfold channelCount
    omega
  refine ⟨_, processFrame_measured_control a hlen h0 hf hr hk, ?_, ?_⟩
  · simp [coarseTrailer, channelCount]
  · rw [List.map_append, List.map_append, labels_channelRecords _ _ _ hc, labels_closingRecords_measured, List.append_assoc]
    rfl

/-- `processFrame_other` with the last byte as the list's last element. -/
theorem processFrame_other_getLast {cfg : ProtocolVariant} {ft : FrameType} {buf : List TimestampedByte} {k : TimestampedByte}
    (hft : ft ≠ .control) (hk : buf.getLast? = some k) : processFrame cfg (some ft) buf = .ok (closingRecords cfg k) := by
  refine processFrame_other hft ?_ (List.getLast?_eq_getElem? ▸ hk)
  exact List.length_pos_of_mem (List.mem_of_getLast? hk)

/-- Settles O38: the batch is the closing records, which are made of the last byte. -/
theorem otherFramesEmitCrcAndEnd : Obligations.OtherFramesEmitCrcAndEnd := by
  intro a ft buf k hft hk
  refine ⟨⟨_, processFrame_other_getLast hft hk, labels_closingRecords_fixed a k⟩,
    ⟨_, processFrame_other_getLast hft hk, labels_closingRecords_measured a k⟩, fun cfg other hother => ?_⟩
  rw [processFrame_other_getLast hft hother, processFrame_other_getLast hft hk]

/-! ### The number of records (43_trailer.md R109) -/

/-- The channels, five trailer records and the closing two. -/
theorem processFrame_fixed_control_length {a : MinLenAssign} {buf : List TimestampedByte} {out : List Annotation}
    (hlen : 3 ≤ buf.length) (h : processFrame (variantRecord a .fixed) (some .control) buf = .ok out) :
    out.length = channelCount (buf.length - 3) + 7 := by
  obtain ⟨b0, f, r, k, h0, hf, hr, hk⟩ := trailerBytes_exist hlen
  cases (processFrame_fixed_control a hlen h0 hf hr hk).symm.trans h
  simp [fineTrailer]

/-- The channels, two trailer records and the closing two. -/
theorem processFrame_measured_control_length {a : MinLenAssign} {buf : List TimestampedByte} {out : List Annotation}
    (hlen : 3 ≤ buf.length) (h : processFrame (variantRecord a .measured) (some .control) buf = .ok out) :
    out.length = channelCount buf.length + 4 := by
  obtain ⟨b0, f, r, k, h0, hf, hr, hk⟩ := trailerBytes_exist hlen
  cases (processFrame_measured_control a hlen h0 hf hr hk).symm.trans h
  simp [coarseTrailer]

theorem processFrame_other_length {cfg : ProtocolVariant} {ft : FrameType} {buf : List TimestampedByte}
    {out : List Annotation} (hft : ft ≠ .control) (h : processFrame cfg (some ft) buf = .ok out) : out.length = 2 := by
  obtain ⟨t, ht, body, k, rfl, -, -, -, hbody⟩ := processFrame_cases h
  cases ht
  simp [hbody hft]

/-- Every operation but FEED.DATA_LAST adds at most one record; RESET drops those there are. -/
theorem exec_adds_at_most_one {s t : State} {i : Instr} (hLast : ∀ x, i ≠ .feedDataLast x) (h : exec i s = .next t) :
    t.outQueue.length ≤ s.outQueue.length + 1 := by
  by_cases hi : ∃ cfg, i = .reset cfg
  · obtain ⟨cfg, rfl⟩ := hi
    cases h
    simp
  · obtain ⟨-, -, -, -, -, -, -, hone⟩ := feedOperationsFrame s t i (not_exists.1 hi) h
    exact hone hLast

/-- Settles O40: the count of each frame type, with the channels bounded through the length. -/
theorem batchSizes : Obligations.BatchSizes := by
  refine ⟨fun a v ft buf out hmin hmax h => ?_, fun a => by simp [channelCount], fun s t i => exec_adds_at_most_one⟩
  have hlen : 3 ≤ buf.length := by
    have := minLen_ge a v
    omega
  by_cases hft : ft = .control
  · subst hft
    cases v with
    | fixed =>
      have hcount := processFrame_fixed_control_length hlen h
      have hbound := channelCount_bounds (buf.length - 3)
      exact ⟨by simpa using hcount, show out.length ≤ 191 by omega⟩
    | measured =>
      have hcount := processFrame_measured_control_length hlen h
      have hbound := channelCount_bounds buf.length
      exact ⟨by simpa using hcount, show out.length ≤ 190 by omega⟩
  · have hcount := processFrame_other_length hft h
    exact ⟨by simpa [hft] using hcount, by cases v <;> simp [hcount]⟩

/-! ### What the bytes of a payload leave alone (43_trailer.md R106, R111) -/

/-- Whether a frame has a batch depends on its type and its length alone. -/
theorem processFrame_gives_of_length {cfg : ProtocolVariant} {ft : Option FrameType} {buf other : List TimestampedByte}
    {out : List Annotation} (h : processFrame cfg ft buf = .ok out) (hlen : other.length = buf.length) :
    ∃ out', processFrame cfg ft other = .ok out' := by
  obtain ⟨t, rfl, -, -, -, -, hne, -⟩ := processFrame_cases h
  have hcontrol : t = .control → 3 ≤ other.length := by
    rintro rfl
    by_contra hshort
    cases (processFrame_short cfg (by omega)).symm.trans h
  obtain ⟨front, last, hout⟩ := processFrame_gives cfg (buf := other) (by omega) hcontrol
  exact ⟨_, hout⟩

/-- FEED.DATA_LAST on an accepted element, where it raises no fault: the frame is processed and the session reset. -/
theorem exec_dataLast_completes {s t : State} {x : TimestampedByte} (ha : Accepts s x)
    (h : exec (.feedDataLast x) s = .next t) (hfault : t.fault = none) :
    s.buf.length < 256 ∧ ∃ out, processFrame s.cfg s.frameType (s.buf ++ [x]) = .ok out ∧
      t = { s.frameReset with lastEnd := some x.stop }.emit out := by
  obtain ⟨hrun, -⟩ := (accepts_iff s x).1 ha
  obtain ⟨hhalt, -⟩ | ⟨-, k, rfl⟩ | ⟨-, u, out, ho, rfl⟩ := runElement_next h
  · simp [hrun] at hhalt
  · cases hfault
  · obtain ⟨hl, rfl, hp⟩ := opDataLast_eq_ok ho
    exact ⟨hl, out, hp, rfl⟩

/-- Settles O34: both steps complete their frame, and the frame reset leaves nothing of the bytes but the batch. -/
theorem payloadBytesDoNotChangeFraming : Obligations.PayloadBytesDoNotChangeFraming := by
  intro s t u x y buf ha hstart hstop hlen ht hu hfault
  obtain ⟨hl, out, hp, rfl⟩ := exec_dataLast_completes ha ht hfault
  obtain ⟨out', hp'⟩ := processFrame_gives_of_length (other := buf ++ [y]) hp (by simp [hlen])
  have ha' : Accepts { s with buf := buf } y := by simpa [Accepts, hstart, hstop] using ha
  have hu' : exec (.feedDataLast y) { s with buf := buf } = _ := runElement_ok ha' (opDataLast_of (hlen ▸ hl) hp')
  cases hu.symm.trans hu'
  simp [State.emit, State.frameReset, hstop]

/-! ### The high bits of the flags byte (43_trailer.md R107) -/

/-- The fine trailer reads bits 3 to 0 and the end of the flags byte. -/
theorem fineTrailer_congr {f g : TimestampedByte} (r : TimestampedByte) (h : Time) (hstop : f.stop = g.stop)
    (hbits : f.value.extractLsb' 0 4 = g.value.extractLsb' 0 4) : fineTrailer f r h = fineTrailer g r h := by
  have hbit : ∀ i < 4, bitShown f.value i = bitShown g.value i := by
    intro i hi
    have := congrArg (·.getLsbD i) hbits
    simp only [BitVec.getLsbD_extractLsb', hi, decide_true, Bool.true_and, Nat.zero_add] at this
    simp only [bitShown, this]
  simp only [fineTrailer_eq, hstop, hbit 0 (by decide), hbit 1 (by decide), hbit 2 (by decide), hbit 3 (by decide)]

/-- A channel that lies in the first `n` bytes does not see byte `n`. -/
theorem channelValue_set {buf : List TimestampedByte} {n i : Nat} (g : TimestampedByte) (h : 11 * i ≤ 8 * n) (hi : 1 ≤ i) :
    channelValue (buf.set n g) i = channelValue buf i := by
  rw [← channelValue_take h hi, List.take_set_of_le le_rfl, channelValue_take h hi]

/-- Channels that all lie in the first `n` bytes do not see byte `n`. -/
theorem channelRecords_set {buf : List TimestampedByte} {n c : Nat} (g : TimestampedByte) (t0 bd : Time)
    (h : 11 * c ≤ 8 * n) : channelRecords (buf.set n g) t0 bd c = channelRecords buf t0 bd c := by
  refine List.map_congr_left fun j hj => ?_
  have := List.mem_range.1 hj
  rw [channelRecord_succ, channelRecord_succ, channelValue_set g (by omega) (by omega)]

/-- Replacing a byte by one of the same start leaves the start of byte 0, also where it is the byte replaced. -/
theorem exists_first_set {buf : List TimestampedByte} {n : Nat} {b0 f g : TimestampedByte} (h0 : buf[0]? = some b0)
    (hf : buf[n]? = some f) (hstart : f.start = g.start) : ∃ b, (buf.set n g)[0]? = some b ∧ b.start = b0.start := by
  cases n with
  | zero =>
    cases h0.symm.trans hf
    have hpos := (List.getElem?_eq_some_iff.1 hf).1
    exact ⟨g, by simp [hpos], hstart.symm⟩
  | succ n => exact ⟨b0, by simpa using h0, rfl⟩

/-- Settles O41: the channels of variant FIXED end before the flags byte, the trailer reads its low bits, and no other frame reads
it. -/
theorem highFlagBitsAreIgnored : Obligations.HighFlagBitsAreIgnored := by
  intro a ft buf f g hlen hf hstart hstop hbits
  obtain ⟨b0, -, r, k, h0, -, hr, hk⟩ := trailerBytes_exist hlen
  obtain ⟨b0', h0', hb0⟩ := exists_first_set h0 hf hstart
  obtain ⟨buf', hbuf'⟩ : ∃ buf', buf' = buf.set (buf.length - 3) g := ⟨_, rfl⟩
  have hsize : buf'.length = buf.length := by rw [hbuf', List.length_set]
  have hf' : buf'[buf'.length - 3]? = some g := by rw [hsize, hbuf', List.getElem?_set_self (by omega)]
  have hr' : buf'[buf'.length - 2]? = some r := by rw [hsize, hbuf', List.getElem?_set_ne (by omega), hr]
  have hk' : buf'[buf'.length - 1]? = some k := by rw [hsize, hbuf', List.getElem?_set_ne (by omega), hk]
  have hchannels := channelRecords_set (buf := buf) g b0.start (1 / 115200) (channelCount_bounds (buf.length - 3)).1
  rw [← hbuf'] at h0' hchannels ⊢
  cases ft with
  | none => rw [processFrame_noType, processFrame_noType]
  | some t =>
    by_cases ht : t = .control
    · subst ht
      rw [processFrame_fixed_control a (hsize ▸ hlen) h0' hf' hr' hk', processFrame_fixed_control a hlen h0 hf hr hk,
        fineTrailer_congr r _ hstop hbits, hb0, hsize, hchannels]
    · rw [processFrame_other ht (by omega) hk', processFrame_other ht (by omega) hk]

end Sys2Proof.Machine
end

/-! The uplink branch, the reserved codes, and the faults of a step (60_exceptions.md R112, R113, R115 to R118, R120). -/

section
namespace Sys2Proof.Machine

/-! ### The uplink operations (60_exceptions.md R115, R116) -/

/-- Settles O11: the row fixes the state code alone, and the operation has no record in its batch. -/
theorem uplinkTypeByte : Obligations.UplinkTypeByte := by
  refine fun s x => ⟨fun hst => ?word, fun ha => ?effect⟩
  case word => exact word_selects (Laws.RowMatch.feedUplType x) hst rfl rfl rfl rfl
  case effect => exact runElement_silent (op := opUplType) ha rfl

/-- Settles O12: the row fixes the state code alone, and the operation has no record in its batch. -/
theorem uplinkDataByte : Obligations.UplinkDataByte := by
  refine fun s x => ⟨fun hst => ?word, fun ha => ?effect⟩
  case word => exact word_selects (Laws.RowMatch.feedUplData x) hst rfl rfl rfl rfl
  case effect => exact runElement_silent (op := opUplData) ha rfl

/-- The byte that enters the uplink branch. -/
theorem feedOne_uplinkStart {s : State} {x : TimestampedByte} (ha : Accepts s x) (hst : s.state = .waitForFirstByte)
    (hx : x.value = 0x08) :
    feedOne x s = .next { s with state := .waitForUplinkType, lastEnd := some x.stop } := by
  obtain ⟨hsel, heff⟩ := uplinkStartEntersBranch s x
  exact (feedOne_of_selected (hsel hst hx).2).trans (heff ha)

/-- The first byte of the uplink branch. -/
theorem feedOne_uplType {s : State} {x : TimestampedByte} (ha : Accepts s x) (hst : s.state = .waitForUplinkType) :
    feedOne x s = .next { s.refuseUplink with state := .waitForUplinkData, lastEnd := some x.stop } := by
  obtain ⟨hsel, heff⟩ := uplinkTypeByte s x
  exact (feedOne_of_selected (hsel hst).2).trans (heff ha)

/-- The second byte of the uplink branch. -/
theorem feedOne_uplData {s : State} {x : TimestampedByte} (ha : Accepts s x) (hst : s.state = .waitForUplinkData) :
    feedOne x s = .next { s.refuseUplink.frameReset with lastEnd := some x.stop } := by
  obtain ⟨hsel, heff⟩ := uplinkDataByte s x
  exact (feedOne_of_selected (hsel hst).2).trans (heff ha)

/-- Settles O59: the effect of each of the three bytes in turn. -/
theorem uplinkBranchIsLeftAfterTwoBytes : Obligations.UplinkBranchIsLeftAfterTwoBytes := by
  intro s x y z hf hr hst hx hord
  obtain ⟨hxSpan, hxOrder, hySpan, hyOrder, hzSpan, hzOrder, -⟩ := hord
  have hStart := feedOne_uplinkStart ⟨hf, hr, hxSpan, hxOrder⟩ hst hx
  have hBranch := (feedAll_cons [y, z] hStart).trans (feedAll_cons [z] (feedOne_uplType ⟨hf, hr, hySpan, hyOrder⟩ rfl))
  rw [hBranch, feedAll_one]
  exact ⟨_, feedOne_uplData ⟨hf, hr, hzSpan, hzOrder⟩ rfl, rfl, by simp [hr], rfl, hf⟩

/-! ### The faults of a step (60_exceptions.md R112, R113, R117, R120) -/

/-- Settles O13: the reserved codes select the operation by their row, an overfull buffer by its count, and the operation raises
its fault. -/
theorem illegalStateFaults : Obligations.IllegalStateFaults := by
  refine fun s x => ⟨fun hst => ?word, fun e hst he hl => ?overfull, fun st ha => ?effect⟩
  case word =>
    obtain hst | hst := hst
    · simpa only [hst] using word_selects (Laws.RowMatch.feedIllegal .reserved6 x) hst rfl rfl rfl rfl
    · simpa only [hst] using word_selects (Laws.RowMatch.feedIllegal .reserved7 x) hst rfl rfl rfl rfl
  case overfull =>
    rw [decode_fetchWord, hst]
    exact decodeElement_overfull x he hl
  case effect => exact runElement_fault (op := opIllegal st) ha rfl

/-- With the block not halted, an element that is not accepted is out of order. -/
theorem feedOne_outOfOrder {s : State} {x : TimestampedByte} (hf : s.fault = none) (hr : s.refused.config = false)
    (h : ¬ Accepts s x) : feedOne x s = .next (s.raiseFault (.inputOrder x)) := by
  have hhalt : s.halted = false := by simp [State.halted, hf, hr]
  have horder : inputInOrder s.lastEnd x = false := by simpa [accepts_iff, hhalt] using h
  obtain ⟨op, hop, -⟩ := feedOne_cases s x
  exact hop.trans (runElement_outOfOrder op hhalt horder)

/-- Settles O15: either broken condition is one that an accepted element meets. -/
theorem inputOutOfOrderFaults : Obligations.InputOutOfOrderFaults := by
  intro s x hf hr hbroken
  refine feedOne_outOfOrder hf hr fun ⟨_, _, hspan, horder⟩ => ?_
  obtain hspan' | ⟨e, he, hlt⟩ := hbroken
  · exact hspan' hspan
  · exact (horder e he).not_gt hlt

/-- Settles O17: a recorded fault halts the block, an element out of order faults whatever it selects, and an accepted one runs
the operation selected, which a reserved code and an overfull buffer make FEED.ILLEGAL. -/
theorem checksAreMadeInOrder : Obligations.ChecksAreMadeInOrder := by
  refine fun s x => ⟨fun hf => ?halted, feedOne_outOfOrder, fun ha hill => ?illegal, fun i _ => feedOne_of_selected⟩
  case halted => exact (haltedBlockTakesNoStep s (.inl hf)).1 x
  case illegal =>
    obtain ⟨hreserved, hoverfull, heff⟩ := illegalStateFaults s x
    have hsel : decode s.decodeCtx (s.fetchWord x) = .ok (.feedIllegal s.state x) := by
      obtain hst | hst | ⟨hst, e, he, hl⟩ := hill
      · exact (hreserved (.inl hst)).2
      · exact (hreserved (.inr hst)).2
      · rw [hst]
        exact hoverfull e hst he hl
    exact (feedOne_of_selected hsel).trans (heff s.state ha)

/-- Settles O18: of the things the step procedure can answer, only taking a fault writes the field, for no operation's own effect
does. -/
theorem faultIsPrecise : Obligations.FaultIsPrecise := by
  intro s t i h hne
  refine or_iff_not_imp_left.2 fun hi => ?_
  rw [exec_feed (not_exists.1 hi)] at h
  obtain ⟨-, rfl⟩ | ⟨-, k, rfl⟩ | ⟨-, u, out, ho, rfl⟩ := runElement_next h
  · rfl
  · rfl
  · obtain ⟨-, -, -, -, hfault, -⟩ := keepsOutside_feedOp i s u out ho
    exact absurd hfault hne

/-! ### Under the invariant (10_state.md R22; 60_exceptions.md R113, R118) -/

/-- WAIT_FOR_FIRST_BYTE has an operation for every byte, and none of them faults. -/
theorem feedOne_firstByte {s : State} {x : TimestampedByte} (ha : Accepts s x) (hst : s.state = .waitForFirstByte) :
    ∃ t, feedOne x s = .next t ∧ t.fault = none := by
  by_cases hSentinel : x.value = 0x7E
  · exact ⟨_, feedOne_sentinel ha hst hSentinel, ha.1⟩
  · by_cases hUplink : x.value = 0x08
    · exact ⟨_, feedOne_uplinkStart ha hst hUplink, ha.1⟩
    · obtain ⟨hsel, heff⟩ := idleByteIsIgnored s x
      exact ⟨_, (feedOne_of_selected (hsel hst hSentinel hUplink).2).trans (heff ha), ha.1⟩

/-- In a frame every byte is taken (`feedOne_bytesToGo_lt`). -/
theorem feedOne_inFrame {s : State} {x : TimestampedByte} (h : Inv s) (ha : Accepts s x) (hin : InFrame s.state) :
    ∃ t, feedOne x s = .next t ∧ t.fault = none := by
  obtain ⟨hf, hr, -⟩ := id ha
  obtain ⟨t, hone, ht, -⟩ := feedOne_bytesToGo_lt ⟨h, hf, hr, .inr hin⟩ hin ha
  exact ⟨t, hone, ht.noFault⟩

/-- Under the invariant no operation that Decode selects for an accepted element faults or stops. -/
theorem feedOne_accepted {s : State} {x : TimestampedByte} (h : Inv s) (ha : Accepts s x) :
    ∃ t, feedOne x s = .next t ∧ t.fault = none := by
  obtain ⟨h6, h7⟩ := h.2.notReserved
  cases hst : s.state with
  | waitForFirstByte => exact feedOne_firstByte ha hst
  | waitForLen => exact feedOne_inFrame h ha (.inl hst)
  | waitForType => exact feedOne_inFrame h ha (.inr (.inl hst))
  | readData => exact feedOne_inFrame h ha (.inr (.inr hst))
  | waitForUplinkType => exact ⟨_, feedOne_uplType ha hst, ha.1⟩
  | waitForUplinkData => exact ⟨_, feedOne_uplData ha hst, ha.1⟩
  | reserved6 => exact absurd hst h6
  | reserved7 => exact absurd hst h7

/-- Under the invariant every element has a next state, and the only new fault is INPUT_ORDER. -/
theorem feedOne_answers {s : State} (h : Inv s) (x : TimestampedByte) :
    ∃ t, feedOne x s = .next t ∧ (t.fault = s.fault ∨ t.fault = some (.inputOrder x)) := by
  by_cases hhalt : s.fault ≠ none ∨ s.refused.config = true
  · exact ⟨s, (haltedBlockTakesNoStep s hhalt).1 x, .inl rfl⟩
  · obtain ⟨hf, hr⟩ : s.fault = none ∧ s.refused.config = false := by simpa using hhalt
    by_cases ha : Accepts s x
    · obtain ⟨t, hone, ht⟩ := feedOne_accepted h ha
      exact ⟨t, hone, .inl (ht.trans hf.symm)⟩
    · exact ⟨_, feedOne_outOfOrder hf hr ha, .inr rfl⟩

/-- Settles O21, from what an element can bring about under the invariant. -/
theorem onlyInputOrderFaults : Obligations.OnlyInputOrderFaults := by
  intro s x h hf
  simpa only [hf] using feedOne_answers h x

/-- Settles O54, by the things a step can be (`step_cases`): all but consuming an element are next states as they stand. -/
theorem stepAlwaysGoesOn : Obligations.StepAlwaysGoesOn := by
  intro s h
  obtain hw | ⟨x, rest, -, -, hf⟩ | ⟨held, m, rest, -, -, ⟨-, hs⟩ | ⟨v, -, hs⟩ | ⟨cfg, -, hs⟩⟩ := step_cases s
  · exact ⟨_, hw⟩
  · obtain ⟨t, ht, -⟩ := feedOne_answers (inv_setHost h rest) x
    exact ⟨t, hf.trans ht⟩
  · exact ⟨_, hs⟩
  · exact ⟨_, hs⟩
  · exact ⟨_, hs⟩

end Sys2Proof.Machine
end

/-! The block reset from any state (70_reset_and_hazards.md R125 to R128, R136; 60_exceptions.md R124), and the order of the records
on their way out (70_reset_and_hazards.md R131). -/

section
namespace Sys2Proof.Machine

/-! ### The effect of RESET -/

theorem exec_reset (s : State) (cfg : ProtocolVariant) : exec (.reset cfg) s = .next (s.blockReset cfg) := rfl

/-- The two records of 00_scope.md R8, written out. -/
theorem admitted_iff_fixed_or_measured (cfg : ProtocolVariant) :
    admitted cfg = true ↔
      cfg = variantRecord Config.minLenAssign .fixed ∨ cfg = variantRecord Config.minLenAssign .measured := by
  simp only [admitted, portRecord_zero, portRecord_one, Bool.or_eq_true, beq_iff_eq]

theorem admitted_variantRecord (v : Variant) : admitted (variantRecord Config.minLenAssign v) = true :=
  (admitted_iff _).2 ⟨v, rfl⟩

/-- An admitted record leaves no CONFIG mark. -/
theorem blockReset_of_admitted (s : State) {cfg : ProtocolVariant} (h : admitted cfg = true) :
    s.blockReset cfg = .afterReset cfg false s.taken s.host := by
  simp only [State.blockReset, h, Bool.not_true]

/-- Settles O14: the fields of the block reset, whose CONFIG mark is the configuration check. -/
theorem blockResetFromAnyState : Obligations.BlockResetFromAnyState := by
  intro s cfg
  have hconfig : (s.blockReset cfg).refused.config = false ↔ admitted cfg = true := by simp
  exact ⟨_, exec_reset s cfg, rfl, rfl, rfl, rfl, rfl, rfl, rfl, rfl, rfl, rfl,
    hconfig.trans (admitted_iff_fixed_or_measured cfg), rfl, rfl⟩

/-! ### The ports with no record on its way out -/

theorem fifo_of_noRecords {s : State} (h : s.outQueue = []) : s.fifo = [] := by
  simp [State.fifo, h]

theorem batchPending_of_noRecords {s : State} (h : s.outQueue = []) : s.batchPending = [] := by
  simp [State.batchPending, h]

/-- Settles O51: the FIXED record is admitted, so the reset state differs in what the block does not hold alone. -/
theorem resetReturnsToTheResetState : Obligations.ResetReturnsToTheResetState := by
  refine ⟨fun s => ⟨_, exec_reset s _, ?same⟩, rfl, rfl, rfl, rfl, rfl, rfl, rfl, rfl, rfl, ?fifo, ?outValid, rfl⟩
  case same =>
    rw [blockReset_of_admitted s (admitted_variantRecord .fixed)]
    rfl
  case fifo => exact fifo_of_noRecords rfl
  case outValid => exact outValid_eq _

/-- Settles O55, premise by premise: the record is admitted, so nothing is refused. -/
theorem resetIsCleanLaunch : Obligations.ResetIsCleanLaunch := by
  intro s v
  have hadm := admitted_variantRecord v
  exact ⟨_, exec_reset s _,
    { cfgAdmitted := hadm
      atReset := ⟨rfl, rfl, rfl, rfl, rfl, rfl, rfl⟩
      noFault := rfl
      nothingRefused := by simp [hadm]
      nothingInFlight := ⟨fifo_of_noRecords rfl, batchPending_of_noRecords rfl⟩ }⟩

/-! ### The step of a reset or a construction -/

/-- Elements held at the input port do not hold up the first move that feeds nothing. -/
theorem nextMove_behind_held {s : State} {held : List TimestampedByte} {m : HostMove} {rest : List HostMove}
    (hh : s.host = held.map .feed ++ m :: rest) (hheld : held = [] ∨ s.outQueue ≠ [])
    (hm : nextMove s.inReady (m :: rest) = some (m, rest)) :
    nextMove s.inReady s.host = some (m, held.map .feed ++ rest) := by
  rw [hh]
  exact nextMove_held held (by simpa using hheld) hm

/-- Settles O27: either move is the host's next, and RESET runs with its record. -/
theorem resetMoveRunsReset : Obligations.ResetMoveRunsReset := by
  refine fun s held rest hheld => ⟨fun v hh => ?reset, fun cfg hh => ?construct⟩
  case reset =>
    simp only [step, nextTurn, nextMove_behind_held hh hheld rfl]
    rfl
  case construct => simp only [step, nextTurn, nextMove_behind_held hh hheld rfl]

/-! ### The order of the records (70_reset_and_hazards.md R131) -/

/-- An element consumed takes no record, and its batch goes behind those on their way out. -/
theorem feedOne_appends_records {s t : State} {x : TimestampedByte} (h : feedOne x s = .next t) :
    t.taken = s.taken ∧ ∃ new, t.outQueue = s.outQueue ++ new := by
  obtain ⟨op, hop, hk⟩ := feedOne_keeps s x
  obtain ⟨-, htaken, -, -, -, hqueue⟩ := runElement_keeps hk (hop.symm.trans h)
  exact ⟨htaken, hqueue⟩

/-- A transfer moves at most one record, the oldest, from those on their way out to the end of those taken. -/
theorem takeRecord_moves_oldest (s : State) :
    s.takeRecord.taken ++ s.takeRecord.outQueue = s.taken ++ s.outQueue ∧
      ∃ more, s.takeRecord.taken = s.taken ++ more ∧ more.length ≤ 1 := by
  obtain ⟨-, hs⟩ | ⟨r, more, hq, hs⟩ := takeRecord_cases s
  · rw [hs]
    exact ⟨rfl, [], by simp⟩
  · rw [hs, hq]
    exact ⟨by simp, [r], rfl, le_rfl⟩

/-- Settles O30, by the things a step can be (`step_cases`): an element consumed adds records at the end, a transfer moves the
oldest, and a reset and a construction alone drop any. -/
theorem outputOrderIsKept : Obligations.OutputOrderIsKept := by
  intro s t h
  obtain hw | ⟨x, rest, -, -, hf⟩ | ⟨held, m, rest, hhost, -, hmove⟩ := step_cases s
  · cases hw.symm.trans h
    exact ⟨.inl ⟨[], by simp⟩, [], by simp⟩
  · obtain ⟨htaken, new, hqueue⟩ := feedOne_appends_records (hf.symm.trans h)
    exact ⟨.inl ⟨new, by simp [htaken, hqueue]⟩, [], by simp [htaken]⟩
  · obtain ⟨-, hs⟩ | ⟨v, hm, hs⟩ | ⟨cfg, hm, hs⟩ := hmove <;> cases hs.symm.trans h
    · obtain ⟨horder, hone⟩ := takeRecord_moves_oldest { s with host := held.map .feed ++ rest }
      exact ⟨.inl ⟨[], by simpa using horder⟩, hone⟩
    · exact ⟨.inr ⟨rfl, rfl, held, m, rest, hhost, rfl, .inl ⟨v, hm⟩⟩, [], by simp⟩
    · exact ⟨.inr ⟨rfl, rfl, held, m, rest, hhost, rfl, .inr ⟨cfg, hm⟩⟩, [], by simp⟩

end Sys2Proof.Machine
end
